-- ==== Sys2Proof/Word.lean ====
section
/-! DEFINITION. The word types of CUBE3D (00_scope.md R12) and the framebuffer select (30_encoding.md R71). -/

namespace Sys2Proof

/-- A 32-bit register, command word or address. -/
abbrev Word := BitVec 32

/-- A 16-bit register, read as two's complement (s16). -/
abbrev Half := BitVec 16

/-- A byte of external memory. -/
abbrev Byte := BitVec 8

/-- The BUF operand of the drawing commands: which of FBBASE0 and FBBASE1 is used (30_encoding.md R71). -/
inductive Buf where
  | fb0
  | fb1
deriving DecidableEq, Repr

end Sys2Proof
end

