-- ==== Sys2Proof/Syntax.lean ====
section
/-! DEFINITION. The commands of CUBE3D: one constructor per row of spec/opcode_table.json (30_encoding.md R73). -/

namespace Sys2Proof

/-- The seven commands (30_encoding.md R73). -/
inductive Instr where
  /-- NOP, format N (43_system.md R140). -/
  | nop
  /-- SINCOS, format N (40_trig.md R95). -/
  | sincos
  /-- XFORM, format N (41_transform.md R109). -/
  | xform
  /-- SETPIX, format B: `buf` is bit 8 (42_raster.md R132). -/
  | setpix (buf : Buf)
  /-- LINE, format B: `buf` is bit 8 (42_raster.md R133). -/
  | line (buf : Buf)
  /-- EDGE, format E: `buf` is bit 8, `eidx` bits 15:12 as an integer (42_raster.md R134, 30_encoding.md R74). -/
  | edge (buf : Buf) (eidx : Nat)
  /-- RESET, format N (43_system.md R141). -/
  | reset
deriving DecidableEq, Repr

end Sys2Proof
end

