-- ==== Sys2Proof/WellFormed.lean ====
section
/-! DEFINITION. Which commands an encoding exists for. The only operand whose type is wider than its field is EIDX. -/

namespace Sys2Proof

/-- EIDX is a 4-bit field (30_encoding.md R71, R74): 0 to 15 have an encoding, and 12 to 15 are well-formed
commands that fault when executed (R77). -/
def Instr.wellFormed : Instr → Bool
  | .nop => true
  | .sincos => true
  | .xform => true
  | .setpix _ => true
  | .line _ => true
  | .edge _ e => decide (e < 16)
  | .reset => true

end Sys2Proof
end

