-- ==== Sys2Proof/Decode.lean ====
section
/-! DEFINITION. Command words: the decoder (30_encoding.md R70 to R77) and, after it, the encoder of the same tables. -/

namespace Sys2Proof

/-- Why a word is illegal (30_encoding.md R76). Every one of these faults ILLEGAL_CMD when executed. -/
inductive DecodeError where
  /-- OPC is none of the seven codes. -/
  | unassignedOpcode (opc : BitVec 8)
  /-- A bit of 31:16 or 11:9 is set. -/
  | reservedBits
  /-- BUF or EIDX is set in a format that does not use it. -/
  | operandOutsideFormat
deriving DecidableEq, Repr

/-- OPC, bits 7:0 (30_encoding.md R71). -/
def fieldOpc (w : Word) : BitVec 8 := w.extractLsb' 0 8

/-- BUF, bit 8 (30_encoding.md R71, R74). -/
def fieldBuf (w : Word) : Buf := if w.getLsbD 8 then .fb1 else .fb0

/-- EIDX, bits 15:12, zero-extended (30_encoding.md R71, R74). -/
def fieldEidx (w : Word) : Nat := (w.extractLsb' 12 4).toNat

/-- A row of the opcode map: a word is the row's command exactly when `w AND mask = pat` (30_encoding.md R73). -/
structure OpcodeRow where
  pat   : Word
  mask  : Word
  build : Word → Instr

/-- The opcode map of 30_encoding.md R73, in its order. -/
def opcodeRows : List OpcodeRow :=
  [ ⟨0x00000000#32, 0xFFFFFFFF#32, fun _ => .nop⟩,
    ⟨0x00000001#32, 0xFFFFFFFF#32, fun _ => .sincos⟩,
    ⟨0x00000002#32, 0xFFFFFFFF#32, fun _ => .xform⟩,
    ⟨0x00000010#32, 0xFFFFFEFF#32, fun w => .setpix (fieldBuf w)⟩,
    ⟨0x00000011#32, 0xFFFFFEFF#32, fun w => .line (fieldBuf w)⟩,
    ⟨0x00000012#32, 0xFFFF0EFF#32, fun w => .edge (fieldBuf w) (fieldEidx w)⟩,
    ⟨0x000000FF#32, 0xFFFFFFFF#32, fun _ => .reset⟩ ]

/-- The name of what makes an unmatched word illegal (30_encoding.md R76). -/
def whyIllegal (w : Word) : DecodeError :=
  if opcodeRows.all (fun r => r.pat.extractLsb' 0 8 != fieldOpc w) then .unassignedOpcode (fieldOpc w)
  else if w &&& 0xFFFF0E00#32 ≠ 0 then .reservedBits
  else .operandOutsideFormat

/-- The decoder, total on every 32-bit word (30_encoding.md R75): the command of the row the word matches, else
illegal. -/
def decode (w : Word) : Except DecodeError Instr :=
  match opcodeRows.find? (fun r => w &&& r.mask == r.pat) with
  | some r => .ok (r.build w)
  | none => .error (whyIllegal w)

/-- BUF placed at bit 8. -/
def encodeBuf : Buf → Word
  | .fb0 => 0x00000000#32
  | .fb1 => 0x00000100#32

/-- EIDX placed at bits 15:12. -/
def encodeEidx (e : Nat) : Word := BitVec.ofNat 32 (4096 * (e % 16))

/-- The command word of an instruction (30_encoding.md R73, R79). -/
def encode : Instr → Word
  | .nop => 0x00000000#32
  | .sincos => 0x00000001#32
  | .xform => 0x00000002#32
  | .setpix b => 0x00000010#32 ||| encodeBuf b
  | .line b => 0x00000011#32 ||| encodeBuf b
  | .edge b e => 0x00000012#32 ||| encodeBuf b ||| encodeEidx e
  | .reset => 0x000000FF#32

/-- The word of a table row from its lowest `nbits` bits, every higher bit 0. -/
def tableWord (nbits w : Nat) : Word := BitVec.ofNat 32 (w % 2 ^ nbits)

/-- What the decoder reads from an instruction whose bits are `w`, bit 0 the least significant bit of the one 32-bit
word (30_encoding.md R70). A command word moves as a whole 32-bit register write, so it has no byte order
(20_memory.md R55); more than 32 bits are no command. -/
def decodeTableWord (nbits w : Nat) : Option Instr :=
  if nbits ≤ 32 then
    match decode (tableWord nbits w) with
    | .ok i => some i
    | .error _ => none
  else none

end Sys2Proof
end

