-- ==== Sys2Proof/Config.lean ====
section
/-! DEFINITION. The implementation parameters of 00_scope.md R9, their legality (R10), and the free values:
what the spec leaves unspecified, as opaque constants of which nothing can be proved. -/

namespace Sys2Proof

/-- The parameters of 00_scope.md R9. MODEL and EDGE are fixed by 10_state.md R33 and R34 and are no parameters here. -/
structure Params where
  /-- CUBE_SIZE, the half-edge of the cube. -/
  cubeSize  : Nat
  /-- PROJ_SHIFT; UNIT = 2^PROJ_SHIFT. -/
  projShift : Nat
  /-- PERSP_UNIT. -/
  perspUnit : Nat
  /-- CENTRE_X. -/
  centreX   : Int
  /-- CENTRE_Y. -/
  centreY   : Int
  /-- SINTAB[0..89]. -/
  sinTab    : List Nat
deriving DecidableEq, Repr

/-- floor(16384·sin(d°)) for d = 0 to 89. PRESUMED (log 15): computed from the sine, not printed in the spec; it
stands only in the legality condition. -/
def sineFloor : List Nat :=
  [0, 285, 571, 857, 1142, 1427, 1712, 1996, 2280, 2563] ++
  [2845, 3126, 3406, 3685, 3963, 4240, 4516, 4790, 5062, 5334] ++
  [5603, 5871, 6137, 6401, 6663, 6924, 7182, 7438, 7691, 7943] ++
  [8192, 8438, 8682, 8923, 9161, 9397, 9630, 9860, 10086, 10310] ++
  [10531, 10748, 10963, 11173, 11381, 11585, 11785, 11982, 12175, 12365] ++
  [12550, 12732, 12910, 13084, 13254, 13420, 13582, 13740, 13894, 14043] ++
  [14188, 14329, 14466, 14598, 14725, 14848, 14967, 15081, 15190, 15295] ++
  [15395, 15491, 15582, 15668, 15749, 15825, 15897, 15964, 16025, 16082] ++
  [16135, 16182, 16224, 16261, 16294, 16321, 16344, 16361, 16374, 16381]

/-- `v` is an integer of 0..16384 strictly within 1 of 16384·sin(d°) (00_scope.md R10 (d)): the floor, or the
floor + 1 where the scaled sine is no integer (it is one only at d = 0 and d = 30, 40_trig.md R90). -/
def sineLegal (d v : Nat) : Bool :=
  let f := sineFloor.getD d 0
  v == f || (v == f + 1 && d != 0 && d != 30)

/-- 00_scope.md R10: the configuration is legal. -/
def Params.legal (p : Params) : Bool :=
  decide (1 ≤ p.cubeSize) && decide (p.cubeSize ≤ 32767) &&
  decide (p.projShift ≤ 15) && decide (p.projShift ≠ 14) &&
  decide (p.perspUnit ≤ 32767) &&
  decide (-32768 ≤ p.centreX) && decide (p.centreX ≤ 32767) &&
  decide (-32768 ≤ p.centreY) && decide (p.centreY ≤ 32767) &&
  decide (p.sinTab.length = 90) &&
  (List.range 90).all (fun d => sineLegal d (p.sinTab.getD d 0))

/-- A configuration carries its legality: an illegal one cannot be built, which is how 93_implementation_defined.md U4
asks a model to refuse it (log 1). -/
structure Config extends Params where
  isLegal : toParams.legal = true
deriving DecidableEq, Repr

/-- UNIT = 2^PROJ_SHIFT (00_scope.md R9). -/
def Config.unit (c : Config) : Int := 2 ^ c.projShift

/-- FREE VALUE: the word a host read of a TP register returns while TPVALID = 0 (10_state.md R31,
93_implementation_defined.md U7; log 4). The argument is the read's own number. -/
opaque Config.freeWord : Nat → Word

/-- FREE VALUE: the contents of TP after a reset (10_state.md R38; log 3). The arguments are the reset's own
number, the entry and the component. -/
opaque Config.freeTP : Nat → Nat → Nat → Half

/-- FREE VALUE: how many further SetPixel calls of a drawing command in flight have been performed when a hardware
reset cuts it (70_reset_and_hazards.md R182, U5; log 11) or another agent accesses memory (R189, U6; log 9, log 10).
The argument is the access's own number. -/
opaque Config.freeCount : Nat → Nat

/-- FREE VALUE: whether another agent's access to memory falls between the read and the write of the next SetPixel
call in flight (20_memory.md R58, U6; log 9). The argument is the access's own number. -/
opaque Config.freeBetween : Nat → Bool

end Sys2Proof
end

