-- ==== Sys2Proof/Machine/Reference.lean ====
section
/-! DEFINITION. The reference configuration of 00_scope.md R9, with the sine table of 40_trig.md R92. -/

namespace Sys2Proof.Machine

/-- The reference contents of SINTAB, ten entries a line (40_trig.md R92). -/
def sinTabReference : List Nat :=
  [0, 286, 572, 857, 1143, 1428, 1713, 1997, 2280, 2563] ++
  [2845, 3126, 3406, 3686, 3964, 4240, 4516, 4790, 5063, 5334] ++
  [5604, 5872, 6138, 6402, 6664, 6924, 7182, 7438, 7692, 7943] ++
  [8192, 8438, 8682, 8923, 9162, 9397, 9630, 9860, 10087, 10311] ++
  [10531, 10749, 10963, 11174, 11381, 11585, 11786, 11982, 12176, 12365] ++
  [12551, 12733, 12911, 13085, 13255, 13421, 13583, 13741, 13894, 14044] ++
  [14189, 14330, 14466, 14598, 14726, 14849, 14968, 15082, 15191, 15296] ++
  [15396, 15491, 15582, 15668, 15749, 15826, 15897, 15964, 16026, 16083] ++
  [16135, 16182, 16225, 16262, 16294, 16322, 16344, 16362, 16374, 16382]

/-- The reference parameters (00_scope.md R9). -/
def paramsReference : Params :=
  { cubeSize := 50, projShift := 8, perspUnit := 200, centreX := 160, centreY := 128,
    sinTab := sinTabReference }

/-- The reference parameters are legal (00_scope.md R10). -/
theorem paramsReference_legal : paramsReference.legal = true := by decide

/-- The reference configuration (00_scope.md R9). -/
def configReference : Config := { toParams := paramsReference, isLegal := paramsReference_legal }

end Sys2Proof.Machine
end

