-- ==== Sys2Proof/Machine/State.lean ====
section
/-! DEFINITION. The state of CUBE3D as plain data (10_state.md), what may still arrive from outside, and the state
after reset (10_state.md R38). -/

namespace Sys2Proof.Machine

/-- The spec's faults are recorded in the state: fault entry is a next state with FAULT, CAUSE and FINFO written
(60_exceptions.md R167), and the halted block merely idles (R170). Nothing of this hardware stops the machine, so this
type has no constructor and no step of the model ends in a fault (log 18). -/
inductive Fault where
deriving DecidableEq, Repr

/-- The width of a host register access. Only `word` has a meaning (43_system.md R149). -/
inductive AccessSize where
  | byte
  | half
  | word
deriving DecidableEq, Repr

/-- Why a step has no meaning. -/
inductive Refusal where
  /-- An instruction whose meaning is not modelled; no arm of `exec` answers it. Safe. -/
  | notModelled (mnemonic : String)
  /-- A register access that is not a 32-bit access at a multiple of 4 below 0x100, raised by the host's read and
  write: "the spec gives it no meaning and a model refuses it" (43_system.md R149, log 12). Safe. -/
  | undefinedAccess (offset : Nat) (size : AccessSize)
deriving DecidableEq, Repr

/-- The fault causes (60_exceptions.md R160); codes 7 to 15 are never recorded. -/
inductive Cause where
  | none
  | illegalCmd
  | angleRange
  | arithOverflow
  | coordRange
  | edgeIndex
  | tpInvalid
deriving DecidableEq, Repr

/-- What a fault records: CAUSE and FINFO (60_exceptions.md R160, R167). -/
structure FaultRecord where
  cause : Cause
  info  : Word
deriving DecidableEq, Repr

/-- A Vector3 of three s16 (10_state.md R30). -/
structure Vec3 where
  x : Half
  y : Half
  z : Half
deriving DecidableEq, Repr

/-- What arrives from outside the block, or an explicit turn of the block among it. Each is one step, so a list of
these is one interleaving of the agents of 00_scope.md R4 (log 6). -/
inductive Input where
  /-- The block moves before the next arrival. -/
  | blockTurn
  /-- A host read of a register (43_system.md R142). -/
  | read (offset : Nat) (size : AccessSize)
  /-- A host write of a register (43_system.md R143). -/
  | write (offset : Nat) (size : AccessSize) (data : Word)
  /-- The host polls STATUS until BUSY reads 0 (30_encoding.md R80 WAIT; log 8). -/
  | wait
  /-- A bus master other than the block reads a byte of external memory (00_scope.md R4). -/
  | memRead (addr : Word)
  /-- A bus master other than the block writes a byte of external memory (00_scope.md R4). -/
  | memWrite (addr : Word) (value : Byte)
  /-- The platform asserts the hardware reset (70_reset_and_hazards.md R180 (a)). -/
  | hardwareReset
deriving DecidableEq, Repr

/-- A value that a read has returned to its reader. -/
inductive Seen where
  | word (value : Word)
  | byte (value : Byte)
deriving DecidableEq, Repr

/-- The bytes of external memory that differ from what an unlisted byte reads as, by rising address. -/
abbrev Memory := List Host.Cell

/-- The state of the machine. -/
structure State where
  /-- CMD, the latched command word (10_state.md R23). -/
  cmd     : Word
  /-- STATUS.BUSY (10_state.md R24). -/
  busy    : Bool
  /-- STATUS.FAULT (10_state.md R24). -/
  fault   : Bool
  /-- STATUS.TPVALID (10_state.md R24, R32). -/
  tpvalid : Bool
  /-- STATUS.CAUSE (10_state.md R24, 60_exceptions.md R160). -/
  cause   : Cause
  /-- FINFO (10_state.md R25). -/
  finfo   : Word
  /-- ANGLE (10_state.md R26). -/
  angle   : Word
  /-- SIN, s16 (10_state.md R27). -/
  sin     : Half
  /-- COS, s16 (10_state.md R27). -/
  cos     : Half
  /-- P0X, s32 (10_state.md R28). -/
  p0x     : Word
  /-- P0Y, s32 (10_state.md R28). -/
  p0y     : Word
  /-- P1X, s32 (10_state.md R28). -/
  p1x     : Word
  /-- P1Y, s32 (10_state.md R28). -/
  p1y     : Word
  /-- FBBASE0 (10_state.md R29). -/
  fbbase0 : Word
  /-- FBBASE1 (10_state.md R29). -/
  fbbase1 : Word
  /-- TP[0..7] (10_state.md R30). -/
  tp      : Vector Vec3 8
  /-- External memory (20_memory.md R54). -/
  mem     : Memory
  /-- How many SetPixel calls of the drawing command in flight have been performed: the one thing of a command that
  another agent can observe part-way (10_state.md R37, 20_memory.md R60, 70_reset_and_hazards.md R182; log 9). -/
  drawn   : Nat
  /-- The byte that the next SetPixel call of the command in flight has read and not yet written back: the call's read
  and write are two accesses, and another agent can come between them (20_memory.md R56, R58; log 9). -/
  held    : Option Byte
  /-- The model's own: the legal configuration, which no step changes (00_scope.md R9, R10; log 1). -/
  cfg     : Config
  /-- The model's own: what is still to arrive from outside, oldest first (log 6). -/
  inputs  : List Input
  /-- The model's own: what reads have returned, newest first (log 6). -/
  hostLog : List Seen
  /-- The model's own: the counter the free values are taken at (log 4). -/
  freeCtr : Nat
deriving DecidableEq, Repr

/-- The machine right after reset (10_state.md R38, 70_reset_and_hazards.md R181): every register and flag 0. TP is
unspecified by the spec and 0 here (DESIGN CHOICE, log 2), memory lists nothing (log 5), the configuration is the
reference one (log 1), and nothing has arrived yet. -/
def State.reset : State :=
  { cmd := 0, busy := false, fault := false, tpvalid := false, cause := .none, finfo := 0,
    angle := 0, sin := 0, cos := 0, p0x := 0, p0y := 0, p1x := 0, p1y := 0,
    fbbase0 := 0, fbbase1 := 0, tp := Vector.replicate 8 ⟨0, 0, 0⟩, mem := [], drawn := 0, held := none,
    cfg := configReference, inputs := [], hostLog := [], freeCtr := 0 }

end Sys2Proof.Machine
end

