-- ==== Sys2Proof/Machine/Flags.lean ====
section
/-! DEFINITION. The STATUS register: the only flags of the block (10_state.md R24). -/

namespace Sys2Proof.Machine

/-- The 4-bit CAUSE code (60_exceptions.md R160). -/
def causeCode : Cause → BitVec 4
  | .none => 0
  | .illegalCmd => 1
  | .angleRange => 2
  | .arithOverflow => 3
  | .coordRange => 4
  | .edgeIndex => 5
  | .tpInvalid => 6

/-- STATUS assembled from its fields: CAUSE in 7:4, bit 3 zero, TPVALID, FAULT, BUSY in 2, 1, 0, the rest zero
(10_state.md R24). -/
def statusWord (s : State) : Word :=
  (0#24 ++ causeCode s.cause) ++ (0#1 ++ BitVec.ofBool s.tpvalid ++ BitVec.ofBool s.fault ++ BitVec.ofBool s.busy)

/-- Completion of a command that does not fault: BUSY falls (43_system.md R147). -/
def complete (s : State) : State := { s with busy := false }

end Sys2Proof.Machine
end

