-- ==== Sys2Proof/Machine/Tables.lean ====
section
/-! DEFINITION. The constant tables MODEL, EDGE and ROWOFF (10_state.md R33, R34, R36). -/

namespace Sys2Proof.Machine

/-- A vertex as integers in the working scale (41_transform.md R100). -/
structure IntVec3 where
  x : Int
  y : Int
  z : Int
deriving DecidableEq, Repr

/-- MODEL[0..7] for the half-edge `S` (10_state.md R33). -/
def modelTable (S : Int) : Vector IntVec3 8 :=
  #v[⟨-S, -S, -S⟩, ⟨S, -S, -S⟩, ⟨S, S, -S⟩, ⟨-S, S, -S⟩,
     ⟨-S, -S, S⟩, ⟨S, -S, S⟩, ⟨S, S, S⟩, ⟨-S, S, S⟩]

/-- MODEL[i] of a configuration (10_state.md R33). -/
def model (c : Config) (i : Fin 8) : IntVec3 := (modelTable c.cubeSize)[i]

/-- EDGE[0..11] (10_state.md R34). -/
def edgeTable : Vector (Fin 8 × Fin 8) 12 :=
  #v[(0, 1), (1, 2), (2, 3), (3, 0), (4, 5), (5, 6), (6, 7), (7, 4), (0, 4), (1, 5), (2, 6), (3, 7)]

/-- ROWOFF[y] = 40·y (10_state.md R36). -/
def rowOff (y : Nat) : Nat := 40 * y

end Sys2Proof.Machine
end

