-- ==== Sys2Proof/Machine/Ops.lean ====
section
/-! DEFINITION. The named operations: external memory (20_memory.md), SetPixel (R56), fault entry
(60_exceptions.md R167) and reset, the one way out of the fault state (R170). -/

namespace Sys2Proof.Machine

/-- What a byte of memory that nothing has written reads as. The spec leaves power-on contents unspecified
(70_reset_and_hazards.md R183); DESIGN CHOICE 0x00, unsafe (log 5). -/
def unlistedByte : Byte := 0x00#8

/-- MemRead(addr, 1) (20_memory.md R54). -/
def Memory.read : Memory → Nat → Byte
  | [], _ => unlistedByte
  | (k, v) :: m, a => if k = a then v else Memory.read m a

/-- MemWrite(addr, 1, v) (20_memory.md R54), keeping the list's canonical form. -/
def Memory.write : Memory → Nat → Byte → Memory
  | [], a, v => if v = unlistedByte then [] else [(a, v)]
  | (k, w) :: m, a, v =>
    if a < k then (if v = unlistedByte then (k, w) :: m else (a, v) :: (k, w) :: m)
    else if a = k then (if v = unlistedByte then m else (k, v) :: m)
    else (k, w) :: Memory.write m a v

/-- Every listed address is above `lo`, addresses rise, each is a 32-bit address, and none lists the unlisted byte. -/
def Memory.wfAbove : Nat → Memory → Bool
  | _, [] => true
  | lo, (k, v) :: m => decide (lo ≤ k) && decide (k < 2 ^ 32) && (v != unlistedByte) && Memory.wfAbove (k + 1) m

/-- The canonical form of memory. -/
def Memory.wf (m : Memory) : Bool := Memory.wfAbove 0 m

/-- A pixel (x, y). -/
abbrev Pixel := Int × Int

/-- addr(b, x, y) = (FBBASE[b] + ROWOFF[y] + x div 8) mod 2^32 (20_memory.md R51, R53). -/
def pixelAddr (base : Word) (p : Pixel) : Nat :=
  (base.toNat + rowOff p.2.toNat + p.1.toNat / 8) % 2 ^ 32

/-- mask(x) = 0x80 >> (x mod 8) (20_memory.md R51). -/
def pixelMask (p : Pixel) : Byte := 0x80#8 >>> (p.1.toNat % 8)

/-- SetPixel(b, x, y): one byte read, one bit ORed in, one byte written (20_memory.md R56). -/
def setPixel (base : Word) (m : Memory) (p : Pixel) : Memory :=
  m.write (pixelAddr base p) (m.read (pixelAddr base p) ||| pixelMask p)

/-- A sequence of SetPixel calls, in order (20_memory.md R60). -/
def setPixels (base : Word) (m : Memory) (ps : List Pixel) : Memory := ps.foldl (setPixel base) m

/-- Fault entry: FAULT, CAUSE and FINFO are written, BUSY falls, nothing else changes (60_exceptions.md R167). -/
def raiseFault (f : FaultRecord) (s : State) : State :=
  { s with fault := true, cause := f.cause, finfo := f.info, busy := false }

/-- Reset of the block, by the RESET command (43_system.md R141) or the hardware reset (70_reset_and_hazards.md
R181): every register and flag takes the value of 10_state.md R38, TP becomes unspecified (a free value, log 3), and
external memory is untouched. It is also the only way out of the fault state (60_exceptions.md R170). -/
def resetBlock (s : State) : State :=
  { State.reset with
    tp := Vector.ofFn fun i => ⟨Config.freeTP s.freeCtr i.val 0, Config.freeTP s.freeCtr i.val 1, Config.freeTP s.freeCtr i.val 2⟩,
    mem := s.mem, cfg := s.cfg, inputs := s.inputs, hostLog := s.hostLog, freeCtr := s.freeCtr + 1 }

/-- The oldest input is taken, and `rest` is still to come. -/
def popInput (rest : List Input) (s : State) : State := { s with inputs := rest }

end Sys2Proof.Machine
end

