-- ==== Sys2Proof/Machine/Operands.lean ====
section
/-! DEFINITION. The operands of the commands: registers named by the command's rule (30_encoding.md R72), as the
integers their types give (00_scope.md R14), and the coordinate check (42_raster.md R122). -/

namespace Sys2Proof.Machine

/-- FBBASE[b] (10_state.md R29). -/
def fbBase (b : Buf) (s : State) : Word :=
  match b with
  | .fb0 => s.fbbase0
  | .fb1 => s.fbbase1

/-- ANGLE as an integer (u32, 10_state.md R26). -/
def angleOf (s : State) : Nat := s.angle.toNat

/-- (P0X, P0Y) as integers (s32, 10_state.md R28). -/
def point0 (s : State) : Pixel := (s.p0x.toInt, s.p0y.toInt)

/-- (P1X, P1Y) as integers (s32, 10_state.md R28). -/
def point1 (s : State) : Pixel := (s.p1x.toInt, s.p1y.toInt)

/-- (TP[i].x, TP[i].y) as integers (s16, 10_state.md R30); z is not read (42_raster.md R134). -/
def tpPoint (s : State) (i : Fin 8) : Pixel := (s.tp[i].x.toInt, s.tp[i].y.toInt)

/-- 0 ≤ x ≤ 319 and 0 ≤ y ≤ 255 (42_raster.md R122). -/
def onScreen (p : Pixel) : Bool :=
  decide (0 ≤ p.1) && decide (p.1 ≤ 319) && decide (0 ≤ p.2) && decide (p.2 ≤ 255)

/-- info(x, y) = (y mod 2^16)·2^16 + (x mod 2^16) (42_raster.md R122, 60_exceptions.md R164). -/
def coordInfo (p : Pixel) : Word := BitVec.ofInt 32 (p.2 % 65536 * 65536 + p.1 % 65536)

end Sys2Proof.Machine
end

