-- ==== Sys2Proof/Machine/Raster.lean ====
section
/-! DEFINITION. The line rasterizer and the SETPIX, LINE and EDGE commands (42_raster.md), and what another agent
can make of a drawing command part-way (20_memory.md R60, 70_reset_and_hazards.md R182, R189). -/

namespace Sys2Proof.Machine

/-- A vertical segment: y ascending from min to max (42_raster.md R123). -/
def verticalPixels (x y0 y1 : Int) : List Pixel :=
  (List.range ((y1 - y0).natAbs + 1)).map fun (k : Nat) => (x, min y0 y1 + k)

/-- A horizontal segment: x ascending from min to max (42_raster.md R124). -/
def horizontalPixels (y x0 x1 : Int) : List Pixel :=
  (List.range ((x1 - x0).natAbs + 1)).map fun (k : Nat) => (min x0 x1 + k, y)

/-- steep = (|y1 − y0| > |x1 − x0|), a strict comparison (42_raster.md R127). -/
def steep (p q : Pixel) : Bool := decide ((q.1 - p.1).natAbs < (q.2 - p.2).natAbs)

/-- The exchange of the coordinates of a point (42_raster.md R127). -/
def transpose (p : Pixel) : Pixel := (p.2, p.1)

/-- Both endpoints in major and minor coordinates: transposed if steep (42_raster.md R127). -/
def majorMinor (p q : Pixel) : Pixel × Pixel :=
  if steep p q then (transpose p, transpose q) else (p, q)

/-- The endpoints ordered so that the major coordinate rises (42_raster.md R128). -/
def ordered (pq : Pixel × Pixel) : Pixel × Pixel :=
  if pq.2.1 < pq.1.1 then (pq.2, pq.1) else pq

/-- The error-term loop, `n` steps from (x, y) with error term `err`: update, test, then plot, in major and minor
coordinates (42_raster.md R129). -/
def errorLoop (dx dy ystep : Int) : Nat → Int → Int → Int → List Pixel
  | 0, _, _, _ => []
  | n + 1, err, x, y =>
    let err' := err - 2 * dy
    if err' < 0 then (x, y + ystep) :: errorLoop dx dy ystep n (err' + 2 * dx) (x + 1) (y + ystep)
    else (x, y) :: errorLoop dx dy ystep n err' (x + 1) y

/-- The loop of a segment whose endpoints are ordered: dx = x1 − x0, dy = |y1 − y0|, ystep the sign of y1 − y0,
the error term starting at 2·dx (42_raster.md R128, R129). -/
def orderedPixels (a b : Pixel) : List Pixel :=
  errorLoop (b.1 - a.1) (b.2 - a.2).natAbs (if a.2 < b.2 then 1 else -1) ((b.1 - a.1).toNat + 1)
    (2 * (b.1 - a.1)) a.1 a.2

/-- The general case, transposed back for plotting (42_raster.md R126 to R129). -/
def generalPixels (p q : Pixel) : List Pixel :=
  let o := ordered (majorMinor p q)
  if steep p q then (orderedPixels o.1 o.2).map transpose else orderedPixels o.1 o.2

/-- drawLine: the pixels of the segment from p to q in the order they are written, by the three cases in priority
order (42_raster.md R120, R121). -/
def linePixels (p q : Pixel) : List Pixel :=
  if p.1 = q.1 then verticalPixels p.1 p.2 q.2
  else if p.2 = q.2 then horizontalPixels p.2 p.1 q.1
  else generalPixels p q

/-- COORD_RANGE at a point (42_raster.md R122, 60_exceptions.md R164). -/
def coordFault (p : Pixel) : FaultRecord := ⟨.coordRange, coordInfo p⟩

/-- The range check of both endpoints, p first, then the pixels of the segment (42_raster.md R122). -/
def segmentPlan (p q : Pixel) : Except FaultRecord (List Pixel) :=
  if !onScreen p then .error (coordFault p)
  else if !onScreen q then .error (coordFault q)
  else .ok (linePixels p q)

/-- What SETPIX draws, or its fault (42_raster.md R132). -/
def setpixPlan (s : State) : Except FaultRecord (List Pixel) :=
  if !onScreen (point0 s) then .error (coordFault (point0 s)) else .ok [point0 s]

/-- What LINE draws, or its fault (42_raster.md R133). -/
def linePlan (s : State) : Except FaultRecord (List Pixel) := segmentPlan (point0 s) (point1 s)

/-- What EDGE draws, or its fault, in the order EDGE_INDEX, TP_INVALID, COORD_RANGE (42_raster.md R134,
60_exceptions.md R165, R166, R169). -/
def edgePlan (e : Nat) (s : State) : Except FaultRecord (List Pixel) :=
  if h : e < 12 then
    if s.tpvalid then segmentPlan (tpPoint s edgeTable[e].1) (tpPoint s edgeTable[e].2)
    else .error ⟨.tpInvalid, 0⟩
  else .error ⟨.edgeIndex, BitVec.ofNat 32 e⟩

/-- The SetPixel calls `ps` in order, of which the first may have made its read already: that call then writes back the
byte `held`, ORed with its bit (20_memory.md R56, R58). With nothing held they are the calls as `setPixels` makes them. -/
def finishPixels (base : Word) (m : Memory) (held : Option Byte) (ps : List Pixel) : Memory :=
  match ps with
  | [] => m
  | p :: rest =>
    setPixels base (m.write (pixelAddr base p) (held.getD (m.read (pixelAddr base p)) ||| pixelMask p)) rest

/-- A drawing command's effect: its fault, or those of its SetPixel calls that have not been performed yet, in
order, and then completion (42_raster.md R120, R136; 43_system.md R147). -/
def finishDraw (b : Buf) (plan : Except FaultRecord (List Pixel)) (s : State) : State :=
  match plan with
  | .error f => raiseFault f s
  | .ok ps =>
    complete { s with mem := finishPixels (fbBase b s) s.mem s.held (ps.drop s.drawn), drawn := 0, held := none }

/-- SETPIX (42_raster.md R132). -/
def execSetpix (b : Buf) (s : State) : Host.Outcome State Fault Refusal := .next (finishDraw b (setpixPlan s) s)

/-- LINE (42_raster.md R133). -/
def execLine (b : Buf) (s : State) : Host.Outcome State Fault Refusal := .next (finishDraw b (linePlan s) s)

/-- EDGE (42_raster.md R134). -/
def execEdge (b : Buf) (e : Nat) (s : State) : Host.Outcome State Fault Refusal := .next (finishDraw b (edgePlan e s) s)

/-- The buffer and the plan of a drawing command; the other commands access no memory (20_memory.md R52). -/
def drawPlan (i : Instr) (s : State) : Option (Buf × Except FaultRecord (List Pixel)) :=
  match i with
  | .nop => none
  | .sincos => none
  | .xform => none
  | .setpix b => some (b, setpixPlan s)
  | .line b => some (b, linePlan s)
  | .edge b e => some (b, edgePlan e s)
  | .reset => none

/-- The SetPixel calls of the command in flight: the base address and all its pixels; none while idle, for a command
that draws nothing, and for one that faults, which accesses no memory (60_exceptions.md R168). -/
def flight (s : State) : Option (Word × List Pixel) :=
  if s.busy then
    match decode s.cmd with
    | .ok i =>
      match drawPlan i s with
      | some (b, .ok ps) => some (fbBase b s, ps)
      | some (_, .error _) => none
      | none => none
    | .error _ => none
  else none

/-- The read of the next of the calls `ps`, if it is made now. -/
def readNext (base : Word) (m : Memory) (now : Bool) (ps : List Pixel) : Option Byte :=
  match ps with
  | [] => none
  | p :: _ => if now then some (m.read (pixelAddr base p)) else none

/-- The command in flight after `k` more of its SetPixel calls, and, when `now` holds, the read of the call after them.
A read that has been made already stays made. -/
def advanceBy (k : Nat) (now : Bool) (base : Word) (ps : List Pixel) (s : State) : State :=
  let m := finishPixels base s.mem s.held ((ps.drop s.drawn).take k)
  { s with
    mem := m,
    drawn := min ps.length (s.drawn + k),
    held := if k = 0 ∧ s.held.isSome then s.held else readNext base m now (ps.drop (s.drawn + k)),
    freeCtr := s.freeCtr + 1 }

/-- Before another agent sees or changes memory, or a hardware reset cuts the command, some further memory accesses of
the command in flight have been made, in order: how many is free (20_memory.md R58, R60; 70_reset_and_hazards.md R182,
R189; log 9 to 11). -/
def advanceFlight (s : State) : State :=
  match flight s with
  | none => s
  | some (base, ps) => advanceBy (Config.freeCount s.freeCtr) (Config.freeBetween s.freeCtr) base ps s

end Sys2Proof.Machine
end

