-- ==== Sys2Proof/Machine/System.lean ====
section
/-! DEFINITION. The NOP and RESET commands (43_system.md R140, R141). -/

namespace Sys2Proof.Machine

/-- NOP: completion and nothing else (43_system.md R140). -/
def execNop (s : State) : Host.Outcome State Fault Refusal := .next (complete s)

/-- RESET: every register and flag takes its reset value (43_system.md R141). -/
def execReset (s : State) : Host.Outcome State Fault Refusal := .next (resetBlock s)

end Sys2Proof.Machine
end

