-- ==== Sys2Proof/Machine/Arith.lean ====
section
/-! DEFINITION. The arithmetic primitives of 00_scope.md R12 and R13, over mathematical integers: nothing wraps. -/

namespace Sys2Proof.Machine

/-- The arithmetic right shift: floor(v / 2^n) (00_scope.md R13); Lean's division of integers by a positive
divisor is the floor. -/
def asr (n : Nat) (v : Int) : Int := v / 2 ^ n

/-- `v` fits a signed 16-bit value (00_scope.md R12). -/
def fitsS16 (v : Int) : Bool := decide (-32768 ≤ v) && decide (v ≤ 32767)

/-- `v` fits a signed 32-bit value (00_scope.md R12). -/
def fitsS32 (v : Int) : Bool := decide (-2147483648 ≤ v) && decide (v ≤ 2147483647)

/-- The s16 register contents of an integer that fits. -/
def toHalf (v : Int) : Half := BitVec.ofInt 16 v

/-- An s16 register as a host read returns it, sign-extended to 32 bits (10_state.md R22). -/
def sext16 (h : Half) : Word := h.signExtend 32

end Sys2Proof.Machine
end

