-- ==== Sys2Proof/Machine/Trig.lean ====
section
/-! DEFINITION. TrigTable and the SINCOS command (40_trig.md). -/

namespace Sys2Proof.Machine

/-- Q(i), 0 ≤ i ≤ 90: SINTAB[i], and 16384 at 90 (40_trig.md R91). -/
def sineQ (c : Config) (i : Nat) : Int := if i ≤ 89 then (c.sinTab.getD i 0 : Nat) else 16384

/-- sincos(a) = (sin, cos), 0 ≤ a ≤ 359, by quadrant (40_trig.md R93). -/
def sincos (c : Config) (a : Nat) : Int × Int :=
  if a ≤ 89 then (sineQ c a, sineQ c (90 - a))
  else if a ≤ 179 then (sineQ c (180 - a), -sineQ c (a - 90))
  else if a ≤ 269 then (-sineQ c (a - 180), -sineQ c (270 - a))
  else (-sineQ c (360 - a), sineQ c (a - 270))

/-- ANGLE_RANGE, when ANGLE ≥ 360 (60_exceptions.md R162). -/
def angleFault (s : State) : Option FaultRecord :=
  if 360 ≤ angleOf s then some ⟨.angleRange, s.angle⟩ else none

/-- SIN and COS take the pair of the lookup (40_trig.md R95, 41_transform.md R109). -/
def writeSincos (sc : Int × Int) (s : State) : State := { s with sin := toHalf sc.1, cos := toHalf sc.2 }

/-- SINCOS (40_trig.md R95). -/
def execSincos (s : State) : Host.Outcome State Fault Refusal :=
  match angleFault s with
  | some f => .next (raiseFault f s)
  | none => .next (complete (writeSincos (sincos s.cfg (angleOf s)) s))

end Sys2Proof.Machine
end

