-- ==== Sys2Proof/Machine/Transform.lean ====
section
/-! DEFINITION. The rotator, the projector and the XFORM command (41_transform.md). -/

namespace Sys2Proof.Machine

/-- rot2(a, b, s, c): both results from the old a and b, one shift by ROT_SHIFT = 14 of each sum
(41_transform.md R101, R102). -/
def rot2 (a b sn cs : Int) : Int × Int := (asr 14 (a * cs - b * sn), asr 14 (a * sn + b * cs))

/-- The values computed for one vertex, under the names of 41_transform.md R109. The rotated vertex is
(x3, y3, z2). -/
structure VertexWork where
  x1 : Int
  z1 : Int
  y2 : Int
  z2 : Int
  x3 : Int
  y3 : Int
  zf : Int
  px : Int
  py : Int
  sx : Int
  sy : Int
deriving DecidableEq, Repr

/-- The arithmetic of one vertex: about Y, then X, then Z, then the projection (41_transform.md R103 to R107). -/
def vertexWork (c : Config) (sn cs : Int) (v : IntVec3) : VertexWork :=
  let r1 := rot2 v.x v.z sn cs
  let r2 := rot2 v.y r1.2 sn cs
  let r3 := rot2 r1.1 r2.1 sn cs
  let zf := c.unit - asr c.projShift (r2.2 * c.perspUnit)
  let px := r3.1 * zf
  let py := r3.2 * zf
  { x1 := r1.1, z1 := r1.2, y2 := r2.1, z2 := r2.2, x3 := r3.1, y3 := r3.2, zf := zf, px := px, py := py,
    sx := asr c.projShift px + c.centreX, sy := asr c.projShift py + c.centreY }

/-- The first stage whose check fails, in the order of 41_transform.md R108. -/
def failedStage (w : VertexWork) : Option Nat :=
  if !(fitsS16 w.x1 && fitsS16 w.z1) then some 1
  else if !(fitsS16 w.y2 && fitsS16 w.z2) then some 2
  else if !(fitsS16 w.x3 && fitsS16 w.y3) then some 3
  else if !(fitsS32 w.px && fitsS32 w.py) then some 4
  else if !(fitsS16 w.sx && fitsS16 w.sy) then some 5
  else none

/-- ARITH_OVERFLOW at the lowest vertex index and, within it, the lowest stage, with FINFO = i + 16·stage
(41_transform.md R108, 60_exceptions.md R163, R169). -/
def overflowFault (c : Config) (sn cs : Int) : Option FaultRecord :=
  (List.finRange 8).findSome? fun i =>
    (failedStage (vertexWork c sn cs (model c i))).map fun stage =>
      ⟨.arithOverflow, BitVec.ofNat 32 (i.val + 16 * stage)⟩

/-- The Vector3 stored for a vertex: the screen coordinates and the rotated depth (41_transform.md R107). -/
def projected (w : VertexWork) : Vec3 := ⟨toHalf w.sx, toHalf w.sy, toHalf w.z2⟩

/-- The eight results of XFORM, index-aligned with MODEL (41_transform.md R109). -/
def transformed (c : Config) (sn cs : Int) : Vector Vec3 8 :=
  Vector.ofFn fun i => projected (vertexWork c sn cs (model c i))

/-- Everything XFORM checks, in the order of 60_exceptions.md R169. -/
def xformFault (s : State) : Option FaultRecord :=
  match angleFault s with
  | some f => some f
  | none => overflowFault s.cfg (sincos s.cfg (angleOf s)).1 (sincos s.cfg (angleOf s)).2

/-- XFORM's commit of all its results at once (41_transform.md R109). -/
def commitXform (s : State) : State :=
  let sc := sincos s.cfg (angleOf s)
  { writeSincos sc s with tp := transformed s.cfg sc.1 sc.2, tpvalid := true }

/-- XFORM (41_transform.md R109). -/
def execXform (s : State) : Host.Outcome State Fault Refusal :=
  match xformFault s with
  | some f => .next (raiseFault f s)
  | none => .next (complete (commitXform s))

end Sys2Proof.Machine
end

