-- ==== Sys2Proof/Machine/Dispatch.lean ====
section
/-! DEFINITION. The meaning of each command, one arm per constructor of Instr. -/

namespace Sys2Proof.Machine

def exec (i : Instr) (s : State) : Host.Outcome State Fault Refusal :=
  match i with
  | .nop => Sys2Proof.Machine.execNop s
  | .sincos => Sys2Proof.Machine.execSincos s
  | .xform => Sys2Proof.Machine.execXform s
  | .setpix b => Sys2Proof.Machine.execSetpix b s
  | .line b => Sys2Proof.Machine.execLine b s
  | .edge b e => Sys2Proof.Machine.execEdge b e s
  | .reset => Sys2Proof.Machine.execReset s

end Sys2Proof.Machine
end

