-- ==== Sys2Proof/Machine/HostPort.lean ====
section
/-! DEFINITION. The host's accesses to the register space (43_system.md R142 to R149), the accesses of other bus
masters to external memory (20_memory.md R58, R61), and the hardware reset (70_reset_and_hazards.md R180). -/

namespace Sys2Proof.Machine

/-- A component of a Vector3. -/
inductive Component where
  | x
  | y
  | z
deriving DecidableEq, Repr

/-- What a register offset names (10_state.md R22). -/
inductive RegName where
  | cmd
  | status
  | finfo
  | angle
  | sin
  | cos
  | p0x
  | p0y
  | p1x
  | p1y
  | fbbase0
  | fbbase1
  | tp (i : Fin 8) (c : Component)
  | reserved
deriving DecidableEq, Repr

/-- The register map, one entry for each 32-bit offset from 0x00 to 0xFC (10_state.md R22): the named registers, the
reserved words 0x30 to 0x3C, TPX[i], TPY[i], TPZ[i] and a reserved word at 0x40 + 16·i, and the reserved words from
0xC0 (R39). -/
def regMap : List RegName :=
  [RegName.cmd, .status, .finfo, .angle, .sin, .cos, .p0x, .p0y, .p1x, .p1y, .fbbase0, .fbbase1] ++
  List.replicate 4 RegName.reserved ++
  (List.finRange 8).flatMap (fun i => [RegName.tp i .x, .tp i .y, .tp i .z, .reserved]) ++
  List.replicate 16 RegName.reserved

/-- What an offset that is a multiple of 4 below 0x100 names (10_state.md R22). -/
def regAt (offset : Nat) : RegName := regMap.getD (offset / 4) .reserved

/-- Only a 32-bit access at a multiple of 4 below 0x100 is defined (43_system.md R149, U9). -/
def accessDefined (offset : Nat) (size : AccessSize) : Bool :=
  size == .word && decide (offset % 4 = 0) && decide (offset < 0x100)

/-- A component of a Vector3. -/
def component (v : Vec3) (c : Component) : Half :=
  match c with
  | .x => v.x
  | .y => v.y
  | .z => v.z

/-- The word a host read returns (43_system.md R142): registers by their type, STATUS assembled, reserved offsets 0,
and a TP register sign-extended while TPVALID = 1, else any value (10_state.md R31; log 4). -/
def readReg (s : State) (r : RegName) : Word :=
  match r with
  | .cmd => s.cmd
  | .status => statusWord s
  | .finfo => s.finfo
  | .angle => s.angle
  | .sin => sext16 s.sin
  | .cos => sext16 s.cos
  | .p0x => s.p0x
  | .p0y => s.p0y
  | .p1x => s.p1x
  | .p1y => s.p1y
  | .fbbase0 => s.fbbase0
  | .fbbase1 => s.fbbase1
  | .tp i c => if s.tpvalid then sext16 (component s.tp[i] c) else Config.freeWord s.freeCtr
  | .reserved => 0

/-- A host read takes a free value exactly when it reads TP without TPVALID. -/
def readIsFree (s : State) (r : RegName) : Bool :=
  match r with
  | .tp _ _ => !s.tpvalid
  | .cmd | .status | .finfo | .angle | .sin | .cos | .p0x | .p0y | .p1x | .p1y | .fbbase0 | .fbbase1 | .reserved => false

/-- A host read: the value reaches the host, and nothing of the block changes (43_system.md R142). -/
def hostRead (offset : Nat) (s : State) : State :=
  { s with
    hostLog := .word (readReg s (regAt offset)) :: s.hostLog,
    freeCtr := if readIsFree s (regAt offset) then s.freeCtr + 1 else s.freeCtr }

/-- A host write that R144 does not discard: CMD issues a command or resets (43_system.md R145), ANGLE, P0X to P1Y
and FBBASE0, FBBASE1 store the word, everything else is read-only or reserved (R143). -/
def acceptWrite (r : RegName) (data : Word) (s : State) : State :=
  match r with
  | .cmd => if data = 0x000000FF#32 then resetBlock s else { s with cmd := data, busy := true }
  | .angle => { s with angle := data }
  | .p0x => { s with p0x := data }
  | .p0y => { s with p0y := data }
  | .p1x => { s with p1x := data }
  | .p1y => { s with p1y := data }
  | .fbbase0 => { s with fbbase0 := data }
  | .fbbase1 => { s with fbbase1 := data }
  | .status | .finfo | .sin | .cos | .tp _ _ | .reserved => s

/-- The writes that are discarded: all while BUSY = 1, and while FAULT = 1 all but the RESET word to CMD
(43_system.md R144). -/
def writeDiscarded (offset : Nat) (data : Word) (s : State) : Bool :=
  s.busy || (s.fault && !(offset == 0x00 && data == 0x000000FF#32))

/-- A host write (43_system.md R143, R144). -/
def hostWrite (offset : Nat) (data : Word) (s : State) : State :=
  if writeDiscarded offset data s then s else acceptWrite (regAt offset) data s

/-- Another bus master reads a byte of memory. While a drawing command is in flight it sees some first part of the
command's pixels (70_reset_and_hazards.md R189; log 10). -/
def foreignRead (addr : Word) (s : State) : State :=
  let s' := advanceFlight s
  { s' with hostLog := .byte (s'.mem.read addr.toNat) :: s'.hostLog }

/-- Another bus master writes a byte of memory. While a drawing command is in flight the write lands between two of the
command's accesses. Between the read and the write of a SetPixel on the same byte it is lost: "the block writes back the
value it read, ORed with its bit" (20_memory.md R58, U6; log 9). -/
def foreignWrite (addr : Word) (value : Byte) (s : State) : State :=
  let s' := advanceFlight s
  { s' with mem := s'.mem.write addr.toNat value }

/-- The hardware reset: at once, also while BUSY = 1; a drawing command in flight leaves some first part of its
pixels in memory (70_reset_and_hazards.md R180, R182; log 11). -/
def hardwareReset (s : State) : State := resetBlock (advanceFlight s)

/-- The last poll of WAIT, which reads BUSY = 0 (30_encoding.md R80). -/
def pollDone (s : State) : State := hostRead 0x04 s

end Sys2Proof.Machine
end

