-- ==== Sys2Proof/Machine/Turns.lean ====
section
/-! DEFINITION. One turn of the block (43_system.md R146) and the arrival of one input. -/

namespace Sys2Proof.Machine

/-- The block executes the latched word: the command it decodes to, or the fault ILLEGAL_CMD with the word in FINFO
(43_system.md R146, 60_exceptions.md R161). -/
def runLatched (s : State) : Host.Outcome State Fault Refusal :=
  match decode s.cmd with
  | .ok i => exec i s
  | .error _ => .next (raiseFault ⟨.illegalCmd, s.cmd⟩ s)

/-- The block's turn: it has a step exactly when BUSY = 1, and idles otherwise (10_state.md R21, 43_system.md R146,
60_exceptions.md R170, R176). -/
def blockTurn (s : State) : Host.Outcome State Fault Refusal :=
  if s.busy then runLatched s else .next s

/-- The arrival of input `i`, with `rest` still to come. -/
def arrive (i : Input) (rest : List Input) (s : State) : Host.Outcome State Fault Refusal :=
  match i with
  | .blockTurn => blockTurn (popInput rest s)
  | .read off size =>
    if accessDefined off size then .next (hostRead off (popInput rest s))
    else .refused (.undefinedAccess off size)
  | .write off size data =>
    if accessDefined off size then .next (hostWrite off data (popInput rest s))
    else .refused (.undefinedAccess off size)
  | .wait => if s.busy then blockTurn s else .next (pollDone (popInput rest s))
  | .memRead a => .next (foreignRead a (popInput rest s))
  | .memWrite a v => .next (foreignWrite a v (popInput rest s))
  | .hardwareReset => .next (hardwareReset (popInput rest s))

/-- One step of the machine: the oldest input, or the block's turn when none is pending (log 6). -/
def turn (s : State) : Host.Outcome State Fault Refusal :=
  match s.inputs with
  | [] => blockTurn s
  | i :: rest => arrive i rest s

/-- The command word `w` is what the very next step runs: latched with BUSY = 1 and the block's turn next
(43_system.md R145, R146), or, for the RESET word, which is never latched, its host write next (log 7). -/
def issueNext (s : State) (w : Word) : State :=
  if w = 0x000000FF#32 then { s with busy := false, inputs := .write 0x00 .word w :: s.inputs }
  else
    { s with
      cmd := w, busy := true, drawn := 0, held := none,
      inputs := match s.inputs with
        | [] => []
        | i :: rest => .blockTurn :: i :: rest }

end Sys2Proof.Machine
end

