-- ==== Sys2Proof/Machine/Step.lean ====
section
/-! DEFINITION. The step of the machine, and how a table word is placed to be run next. -/

namespace Sys2Proof.Machine

/-- One step (43_system.md R146; log 6). -/
def step (s : State) : Host.Outcome State Fault Refusal := turn s

/-- `s` with the command word of a table row placed so that the very next step runs it (log 7). -/
def State.withFetchWord (s : State) (nbits w : Nat) : State := issueNext s (tableWord nbits w)

end Sys2Proof.Machine
end

