-- ==== Sys2Proof/Machine/HostProgram.lean ====
section
/-! DEFINITION. The spec's notation for host programs (30_encoding.md R79, R80), as lists of inputs that a state can
hold: every line of a program is one host access, and WAIT is one input (log 8). -/

namespace Sys2Proof.Machine

/-- `WR <reg>, <value>` (30_encoding.md R79). -/
def wr (offset : Nat) (value : Word) : Input := .write offset .word value

/-- `RD <reg>` (30_encoding.md R79). -/
def rd (offset : Nat) : Input := .read offset .word

/-- A command line: the write of its word to CMD (30_encoding.md R79). -/
def command (i : Instr) : Input := wr 0x00 (encode i)

/-- `SETP0 <x>, <y>` (30_encoding.md R80). -/
def setP0 (p : Pixel) : List Input := [wr 0x18 (BitVec.ofInt 32 p.1), wr 0x1C (BitVec.ofInt 32 p.2)]

/-- `SETP1 <x>, <y>` (30_encoding.md R80). -/
def setP1 (p : Pixel) : List Input := [wr 0x20 (BitVec.ofInt 32 p.1), wr 0x24 (BitVec.ofInt 32 p.2)]

/-- `DRAWLINE <b>, <x0>, <y0>, <x1>, <y1>` (30_encoding.md R80). -/
def drawLineCall (b : Buf) (p q : Pixel) : List Input := setP0 p ++ setP1 q ++ [command (.line b), .wait]

/-- `DRAWCUBE <b>` (30_encoding.md R80). -/
def drawCube (b : Buf) : List Input := (List.range 12).flatMap fun e => [command (.edge b e), .wait]

/-- `FRAME <b>, <a>` (30_encoding.md R80). -/
def frame (b : Buf) (a : Nat) : List Input :=
  [wr 0x0C (BitVec.ofNat 32 a), command .xform, .wait] ++ drawCube b

end Sys2Proof.Machine
end

