-- ==== Sys2Proof/Safety.lean ====
section
/-! DEFINITION. What counts as a safe run, in the terms the claims use: the pixels of a framebuffer, and the invariant
that every step keeps. -/

namespace Sys2Proof.Machine

/-- (x, y) is a pixel of the 320 by 256 screen (00_scope.md R8, 42_raster.md R122). -/
abbrev OnScreen (p : Pixel) : Prop := (0 ≤ p.1 ∧ p.1 ≤ 319) ∧ (0 ≤ p.2 ∧ p.2 ≤ 255)

/-- Pixel p of the framebuffer at `base` is set: bit 7 − (x mod 8) of its byte (20_memory.md R50, R51). -/
def pixelOn (base : Word) (m : Memory) (p : Pixel) : Bool :=
  (m.read (pixelAddr base p)).getLsbD (7 - p.1.toNat % 8)

/-- Address `a` is one of the 10240 bytes of the framebuffer at `base`, modulo 2^32 (20_memory.md R50, R53). -/
def inFramebuffer (base : Word) (a : Nat) : Prop := ∃ off < 10240, a = (base.toNat + off) % 2 ^ 32

/-- How many SetPixel calls the command in flight makes in all; 0 when none is in flight. -/
def flightLength (s : State) : Nat :=
  match flight s with
  | some (_, ps) => ps.length
  | none => 0

/-- The checks of one stage of a vertex (41_transform.md R108), stages 1 to 5. -/
def stagePasses (w : VertexWork) (stage : Nat) : Prop :=
  match stage with
  | 1 => (-32768 ≤ w.x1 ∧ w.x1 ≤ 32767) ∧ (-32768 ≤ w.z1 ∧ w.z1 ≤ 32767)
  | 2 => (-32768 ≤ w.y2 ∧ w.y2 ≤ 32767) ∧ (-32768 ≤ w.z2 ∧ w.z2 ≤ 32767)
  | 3 => (-32768 ≤ w.x3 ∧ w.x3 ≤ 32767) ∧ (-32768 ≤ w.y3 ∧ w.y3 ≤ 32767)
  | 4 => (-2147483648 ≤ w.px ∧ w.px ≤ 2147483647) ∧ (-2147483648 ≤ w.py ∧ w.py ≤ 2147483647)
  | 5 => (-32768 ≤ w.sx ∧ w.sx ≤ 32767) ∧ (-32768 ≤ w.sy ∧ w.sy ≤ 32767)
  | _ => True

/-- The arithmetic of one vertex as equations, with floor division written out (41_transform.md R103 to R107). -/
structure VertexRule (c : Config) (sn cs : Int) (v : IntVec3) (w : VertexWork) : Prop where
  x1 : w.x1 = (v.x * cs - v.z * sn) / 16384
  z1 : w.z1 = (v.x * sn + v.z * cs) / 16384
  y2 : w.y2 = (v.y * cs - w.z1 * sn) / 16384
  z2 : w.z2 = (v.y * sn + w.z1 * cs) / 16384
  x3 : w.x3 = (w.x1 * cs - w.y2 * sn) / 16384
  y3 : w.y3 = (w.x1 * sn + w.y2 * cs) / 16384
  zf : w.zf = 2 ^ c.projShift - (w.z2 * c.perspUnit) / 2 ^ c.projShift
  px : w.px = w.x3 * w.zf
  py : w.py = w.y3 * w.zf
  sx : w.sx = w.px / 2 ^ c.projShift + c.centreX
  sy : w.sy = w.py / 2 ^ c.projShift + c.centreY

/-- MODEL[i] written out (10_state.md R33). -/
def modelVertex (S : Int) (i : Nat) : IntVec3 :=
  match i with
  | 0 => ⟨-S, -S, -S⟩
  | 1 => ⟨S, -S, -S⟩
  | 2 => ⟨S, S, -S⟩
  | 3 => ⟨-S, S, -S⟩
  | 4 => ⟨-S, -S, S⟩
  | 5 => ⟨S, -S, S⟩
  | 6 => ⟨S, S, S⟩
  | _ => ⟨-S, S, S⟩

/-- What every reachable state satisfies. -/
structure Inv (s : State) : Prop where
  /-- Memory is in canonical form. -/
  memWf : s.mem.wf = true
  /-- BUSY and FAULT are never both 1 (10_state.md R24). -/
  notBoth : ¬(s.busy = true ∧ s.fault = true)
  /-- CAUSE and FINFO are 0 while FAULT = 0 (10_state.md R24, R25). -/
  clean : s.fault = false → s.cause = .none ∧ s.finfo = 0
  /-- A recorded fault has a cause (60_exceptions.md R160). -/
  recorded : s.fault = true → s.cause ≠ .none
  /-- SIN lies in −16384 to 16384 (10_state.md R27). -/
  sinRange : -16384 ≤ s.sin.toInt ∧ s.sin.toInt ≤ 16384
  /-- COS lies in −16384 to 16384 (10_state.md R27). -/
  cosRange : -16384 ≤ s.cos.toInt ∧ s.cos.toInt ≤ 16384
  /-- The RESET word is never latched (30_encoding.md R75, 43_system.md R145). -/
  notResetLatched : s.busy = true → s.cmd ≠ 0x000000FF#32
  /-- No more SetPixel calls are performed than the command in flight makes. -/
  drawnBound : s.drawn ≤ flightLength s
  /-- A byte is held only by a SetPixel call that is still to be completed. -/
  heldBound : s.held ≠ none → s.drawn < flightLength s
  /-- TP holds the result of an XFORM at a legal angle while TPVALID = 1 (10_state.md R30, R32). -/
  tpIsTransformed : s.tpvalid = true →
    ∃ a < 360, overflowFault s.cfg (sincos s.cfg a).1 (sincos s.cfg a).2 = none ∧
      s.tp = transformed s.cfg (sincos s.cfg a).1 (sincos s.cfg a).2

end Sys2Proof.Machine
end

