-- ==== Sys2Proof/Certificates/Slice0/Obligations.lean ====
section
/-! DEFINITION. The statements for the provers. Each docstring names the rules of spec/ that the statement says. -/

section Statements

open Sys2Proof Sys2Proof.Machine

/-! ### Encoding -/

/-- R73: a word is a command exactly when `(w AND mask) = match`, for the seven rows of the map. -/
def Obligations.WordIsACommandExactlyWhenItMatches : Prop :=
  ∀ w : Word,
    (decode w = .ok .nop ↔ w &&& 0xFFFFFFFF#32 = 0x00000000#32) ∧
    (decode w = .ok .sincos ↔ w &&& 0xFFFFFFFF#32 = 0x00000001#32) ∧
    (decode w = .ok .xform ↔ w &&& 0xFFFFFFFF#32 = 0x00000002#32) ∧
    ((∃ b, decode w = .ok (.setpix b)) ↔ w &&& 0xFFFFFEFF#32 = 0x00000010#32) ∧
    ((∃ b, decode w = .ok (.line b)) ↔ w &&& 0xFFFFFEFF#32 = 0x00000011#32) ∧
    ((∃ b e, decode w = .ok (.edge b e)) ↔ w &&& 0xFFFF0EFF#32 = 0x00000012#32) ∧
    (decode w = .ok .reset ↔ w &&& 0xFFFFFFFF#32 = 0x000000FF#32)

/-- 30_encoding.md section 2: BUF is bit 8 and EIDX is bits 15:12, zero-extended, in every word that decodes. -/
def Obligations.OperandsAreTheirBitFields : Prop :=
  ∀ (w : Word) (b : Buf),
    (decode w = .ok (.setpix b) → (b = .fb1 ↔ w.getLsbD 8 = true)) ∧
    (decode w = .ok (.line b) → (b = .fb1 ↔ w.getLsbD 8 = true)) ∧
    (∀ e, decode w = .ok (.edge b e) → (b = .fb1 ↔ w.getLsbD 8 = true) ∧ e = w.toNat / 4096 % 16)

/-- Decoding the word of any well-formed command gives it back, every operand at every value of its field. -/
def Obligations.DecodeInvertsEncode : Prop :=
  ∀ i : Instr, i.wellFormed = true → decode (encode i) = .ok i

/-- Every word that decodes is the one word of a well-formed command: no bit of a legal word is dropped. -/
def Obligations.EncodeInvertsDecode : Prop :=
  ∀ (w : Word) (i : Instr), decode w = .ok i → i.wellFormed = true ∧ encode i = w

/-- Words written out from the map of R73 decode to their commands. -/
def Obligations.WrittenWordsDecode : Prop :=
  decode 0x00000000#32 = .ok .nop ∧ decode 0x00000001#32 = .ok .sincos ∧ decode 0x00000002#32 = .ok .xform ∧
  decode 0x00000110#32 = .ok (.setpix .fb1) ∧ decode 0x00000011#32 = .ok (.line .fb0) ∧
  decode 0x0000B112#32 = .ok (.edge .fb1 11) ∧ decode 0x0000C012#32 = .ok (.edge .fb0 12) ∧
  decode 0x000000FF#32 = .ok .reset ∧ decode 0x000001FF#32 = .error .operandOutsideFormat

/-- R76, R161: a latched word that matches no row, and so every word of the classes that R76 lists, faults ILLEGAL_CMD
with the word in FINFO and changes nothing else, whenever the block takes its turn: with no input pending, at an
explicit turn of the block (which is taken off the inputs), and while the host waits (its WAIT stays). -/
def Obligations.IllegalWordsFault : Prop :=
  ∀ s : State, s.busy = true →
    ((s.cmd &&& 0xFFFFFFFF#32 ≠ 0x00000000#32 ∧ s.cmd &&& 0xFFFFFFFF#32 ≠ 0x00000001#32 ∧
      s.cmd &&& 0xFFFFFFFF#32 ≠ 0x00000002#32 ∧ s.cmd &&& 0xFFFFFEFF#32 ≠ 0x00000010#32 ∧
      s.cmd &&& 0xFFFFFEFF#32 ≠ 0x00000011#32 ∧ s.cmd &&& 0xFFFF0EFF#32 ≠ 0x00000012#32 ∧
      s.cmd &&& 0xFFFFFFFF#32 ≠ 0x000000FF#32) ∨
     s.cmd &&& 0x000000FF#32 ∉ [0x00#32, 0x01#32, 0x02#32, 0x10#32, 0x11#32, 0x12#32, 0xFF#32] ∨
     s.cmd &&& 0xFFFF0E00#32 ≠ 0 ∨
     (s.cmd &&& 0x000000FF#32 ∈ [0x00#32, 0x01#32, 0x02#32, 0xFF#32] ∧ s.cmd &&& 0x0000F100#32 ≠ 0) ∨
     (s.cmd &&& 0x000000FF#32 ∈ [0x10#32, 0x11#32] ∧ s.cmd &&& 0x0000F000#32 ≠ 0)) →
    (s.inputs = [] →
      step s = .next { s with fault := true, cause := .illegalCmd, finfo := s.cmd, busy := false }) ∧
    (∀ rest, s.inputs = .blockTurn :: rest →
      step s = .next { s with inputs := rest, fault := true, cause := .illegalCmd, finfo := s.cmd, busy := false }) ∧
    (∀ rest, s.inputs = .wait :: rest →
      step s = .next { s with fault := true, cause := .illegalCmd, finfo := s.cmd, busy := false })

/-! ### The step -/

/-- R146: with BUSY = 1, the block's turn is the meaning of the command that CMD decodes to. Around it the step only
takes an explicit turn of the block off the inputs; a pending WAIT of the host stays there. -/
def Obligations.StepRunsTheLatchedCommand : Prop :=
  ∀ (s : State) (i : Instr), s.busy = true → decode s.cmd = .ok i →
    (s.inputs = [] → step s = exec i s) ∧
    (∀ rest, s.inputs = .blockTurn :: rest → step s = exec i { s with inputs := rest }) ∧
    (∀ rest, s.inputs = .wait :: rest → step s = exec i s)

/-- R21, R170: with BUSY = 0 the block has no step: its turn changes nothing. -/
def Obligations.IdleBlockDoesNothing : Prop :=
  ∀ s : State, s.busy = false →
    (s.inputs = [] → step s = .next s) ∧
    (∀ rest, s.inputs = .blockTurn :: rest → step s = .next { s with inputs := rest })

/-- R143, R144, R145: a host write is discarded while BUSY = 1, and while FAULT = 1 unless it is the RESET word to CMD;
else it issues or resets at CMD, stores at ANGLE, P0X to P1Y, FBBASE0 and FBBASE1, and does nothing elsewhere. -/
def Obligations.HostWritesFollowTheRegisterMap : Prop :=
  ∀ (s : State) (off : Nat) (data : Word) (rest : List Input),
    s.inputs = .write off .word data :: rest → off % 4 = 0 → off < 0x100 →
    ((s.busy = true ∨ (s.fault = true ∧ ¬(off = 0x00 ∧ data = 0x000000FF#32))) →
      step s = .next { s with inputs := rest }) ∧
    (¬(s.busy = true ∨ (s.fault = true ∧ ¬(off = 0x00 ∧ data = 0x000000FF#32))) →
      step s =
        if off = 0x00 then
          (if data = 0x000000FF#32 then exec .reset { s with inputs := rest }
           else .next { s with inputs := rest, cmd := data, busy := true })
        else if off = 0x0C then .next { s with inputs := rest, angle := data }
        else if off = 0x18 then .next { s with inputs := rest, p0x := data }
        else if off = 0x1C then .next { s with inputs := rest, p0y := data }
        else if off = 0x20 then .next { s with inputs := rest, p1x := data }
        else if off = 0x24 then .next { s with inputs := rest, p1y := data }
        else if off = 0x28 then .next { s with inputs := rest, fbbase0 := data }
        else if off = 0x2C then .next { s with inputs := rest, fbbase1 := data }
        else .next { s with inputs := rest })

/-- R142, R31, R39: a host read returns the register of its offset, typed as R22 says, and changes nothing of the
block (the free counter of the model may advance); with TPVALID = 0 nothing is said of the value of a TP register. -/
def Obligations.HostReadsFollowTheRegisterMap : Prop :=
  ∀ (s : State) (off : Nat) (rest : List Input),
    s.inputs = .read off .word :: rest → off % 4 = 0 → off < 0x100 →
    ∃ (v : Word) (n : Nat),
      step s = .next { s with inputs := rest, hostLog := .word v :: s.hostLog, freeCtr := n } ∧
      (off = 0x00 → v = s.cmd) ∧
      (off = 0x04 → v = BitVec.ofNat 32
        (s.busy.toNat + 2 * s.fault.toNat + 4 * s.tpvalid.toNat + 16 * (causeCode s.cause).toNat)) ∧
      (off = 0x08 → v = s.finfo) ∧ (off = 0x0C → v = s.angle) ∧
      (off = 0x10 → v.toInt = s.sin.toInt) ∧ (off = 0x14 → v.toInt = s.cos.toInt) ∧
      (off = 0x18 → v = s.p0x) ∧ (off = 0x1C → v = s.p0y) ∧ (off = 0x20 → v = s.p1x) ∧ (off = 0x24 → v = s.p1y) ∧
      (off = 0x28 → v = s.fbbase0) ∧ (off = 0x2C → v = s.fbbase1) ∧
      (s.tpvalid = true → ∀ i : Fin 8,
        (off = 0x40 + 16 * i.val → v.toInt = s.tp[i].x.toInt) ∧
        (off = 0x44 + 16 * i.val → v.toInt = s.tp[i].y.toInt) ∧
        (off = 0x48 + 16 * i.val → v.toInt = s.tp[i].z.toInt)) ∧
      (((0x30 ≤ off ∧ off ≤ 0x3C) ∨ (∃ i < 8, off = 0x4C + 16 * i) ∨ 0xC0 ≤ off) → v = 0)

/-- R149: an access that is not a 32-bit access at a multiple of 4 inside 0x00..0xFF has no meaning and is refused. -/
def Obligations.UndefinedAccessesAreRefused : Prop :=
  ∀ (s : State) (off : Nat) (size : AccessSize) (rest : List Input),
    (size ≠ .word ∨ off % 4 ≠ 0 ∨ 0x100 ≤ off) →
    (s.inputs = .read off size :: rest → step s = .refused (.undefinedAccess off size)) ∧
    (∀ data, s.inputs = .write off size data :: rest → step s = .refused (.undefinedAccess off size))

/-- Nothing but such an access ever stops the machine: every other step answers a next state. -/
def Obligations.OnlyUndefinedAccessesStop : Prop :=
  ∀ s : State,
    (∃ t, step s = .next t) ∨
    (∃ off size rest, (size ≠ .word ∨ off % 4 ≠ 0 ∨ 0x100 ≤ off) ∧
      step s = .refused (.undefinedAccess off size) ∧
      (s.inputs = .read off size :: rest ∨ ∃ data, s.inputs = .write off size data :: rest))

/-- R147, R80: a WAIT ends. The first step runs the command in flight and leaves BUSY = 0, the second reads STATUS
with bit 0 clear and takes the WAIT off the inputs. -/
def Obligations.WaitEndsAfterTheCommand : Prop :=
  ∀ (s : State) (rest : List Input), s.busy = true → s.inputs = .wait :: rest →
    ∃ t u v, step s = .next t ∧ t.busy = false ∧ t.inputs = .wait :: rest ∧ t.hostLog = s.hostLog ∧
      step t = .next u ∧ u = { t with inputs := rest, hostLog := .word v :: s.hostLog } ∧ v.getLsbD 0 = false

/-- R147: every command, in every state, ends in a next state with BUSY = 0. -/
def Obligations.EveryCommandEndsWithBusyClear : Prop :=
  ∀ (i : Instr) (s : State), ∃ t, exec i s = .next t ∧ t.busy = false

/-! ### NOP, SINCOS, XFORM -/

/-- R140: NOP completes and does nothing else. -/
def Obligations.NopOnlyCompletes : Prop :=
  ∀ s : State, exec .nop s = .next { s with busy := false }

/-- R93, R95: at an angle of 0 to 359, SINCOS writes the pair of its quadrant to SIN and COS, completes, and changes
nothing else. `T d` is SINTAB[d], and 16384 stands at index 90. -/
def Obligations.SincosWritesTheQuadrantPair : Prop :=
  ∀ (s : State) (T : Nat → Int), (∀ d < 90, T d = (s.cfg.sinTab.getD d 0 : Nat)) → T 90 = 16384 →
    s.angle.toNat < 360 →
    ∃ sn cs : Int,
      exec .sincos s = .next { s with sin := BitVec.ofInt 16 sn, cos := BitVec.ofInt 16 cs, busy := false } ∧
      (-16384 ≤ sn ∧ sn ≤ 16384) ∧ (-16384 ≤ cs ∧ cs ≤ 16384) ∧
      (s.angle.toNat ≤ 89 → sn = T s.angle.toNat ∧ cs = T (90 - s.angle.toNat)) ∧
      (90 ≤ s.angle.toNat → s.angle.toNat ≤ 179 →
        sn = T (180 - s.angle.toNat) ∧ cs = -T (s.angle.toNat - 90)) ∧
      (180 ≤ s.angle.toNat → s.angle.toNat ≤ 269 →
        sn = -T (s.angle.toNat - 180) ∧ cs = -T (270 - s.angle.toNat)) ∧
      (270 ≤ s.angle.toNat → sn = -T (360 - s.angle.toNat) ∧ cs = T (s.angle.toNat - 270))

/-- R162: SINCOS and XFORM at ANGLE ≥ 360 fault ANGLE_RANGE with ANGLE in FINFO and change nothing else. -/
def Obligations.AngleOutOfRangeFaults : Prop :=
  ∀ s : State, 360 ≤ s.angle.toNat →
    exec .sincos s = .next { s with fault := true, cause := .angleRange, finfo := s.angle, busy := false } ∧
    exec .xform s = .next { s with fault := true, cause := .angleRange, finfo := s.angle, busy := false }

/-- R94: the range, the exact values and the symmetries of sincos under every legal SINTAB, and the deviation of
sin² + cos² from 2^28 under the reference SINTAB. -/
def Obligations.SincosSymmetriesAndExactValues : Prop :=
  (∀ (c : Config) (a : Nat), a < 360 →
    (-16384 ≤ (sincos c a).1 ∧ (sincos c a).1 ≤ 16384) ∧ (-16384 ≤ (sincos c a).2 ∧ (sincos c a).2 ≤ 16384) ∧
    (sincos c a).1 = (sincos c ((a + 270) % 360)).2 ∧
    (sincos c ((a + 180) % 360)).1 = -(sincos c a).1 ∧
    (sincos c ((a + 180) % 360)).2 = -(sincos c a).2 ∧
    (sincos c a).2 = (sincos c ((360 - a) % 360)).2 ∧
    (sincos c ((360 - a) % 360)).1 = -(sincos c a).1) ∧
  (∀ c : Config,
    sincos c 0 = (0, 16384) ∧ sincos c 90 = (16384, 0) ∧ sincos c 180 = (0, -16384) ∧ sincos c 270 = (-16384, 0) ∧
    (∃ q : Int, q = (c.sinTab.getD 60 0 : Nat) ∧ sincos c 30 = (8192, q) ∧ sincos c 150 = (8192, -q) ∧
      sincos c 210 = (-8192, -q) ∧ sincos c 330 = (-8192, q))) ∧
  (∀ a < 360,
    let d := (sincos configReference a).1 ^ 2 + (sincos configReference a).2 ^ 2 - 2 ^ 28
    d.natAbs ≤ 16872 ∧ (d.natAbs = 16872 ↔ a ∈ [23, 67, 113, 157, 203, 247, 293, 337]))

/-- R103, R104, R105, R107: at a legal angle, when every check of every vertex passes, XFORM commits SIN, COS, all
eight projected vertices and TPVALID at once, completes, and changes nothing else. W i is the arithmetic of vertex i,
given by its equations. -/
def Obligations.XformCommitsTheProjectedVertices : Prop :=
  ∀ (s : State) (sn cs : Int) (W : Fin 8 → VertexWork),
    s.angle.toNat < 360 → sincos s.cfg s.angle.toNat = (sn, cs) →
    (∀ i : Fin 8, VertexRule s.cfg sn cs (modelVertex s.cfg.cubeSize i.val) (W i)) →
    (∀ i : Fin 8, ∀ stage, 1 ≤ stage → stage ≤ 5 → stagePasses (W i) stage) →
    exec .xform s = .next
      { s with
        sin := BitVec.ofInt 16 sn, cos := BitVec.ofInt 16 cs,
        tp := Vector.ofFn fun i =>
          ⟨BitVec.ofInt 16 (W i).sx, BitVec.ofInt 16 (W i).sy, BitVec.ofInt 16 (W i).z2⟩,
        tpvalid := true, busy := false }

/-- R163: the lowest vertex, and within it the lowest stage, whose check fails is reported as
FINFO = i + 16·stage, and XFORM then changes nothing but the fault record and BUSY. -/
def Obligations.XformReportsTheFirstOverflow : Prop :=
  ∀ (s : State) (sn cs : Int) (W : Fin 8 → VertexWork) (i : Fin 8) (stage : Nat),
    s.angle.toNat < 360 → sincos s.cfg s.angle.toNat = (sn, cs) →
    (∀ j : Fin 8, VertexRule s.cfg sn cs (modelVertex s.cfg.cubeSize j.val) (W j)) →
    (∀ j : Fin 8, j < i → ∀ k, 1 ≤ k → k ≤ 5 → stagePasses (W j) k) →
    (∀ k, 1 ≤ k → k < stage → stagePasses (W i) k) →
    1 ≤ stage → stage ≤ 5 → ¬stagePasses (W i) stage →
    exec .xform s = .next
      { s with fault := true, cause := .arithOverflow, finfo := BitVec.ofNat 32 (i.val + 16 * stage), busy := false }

/-- 41_transform.md sections 2 and 3: the sums that are shifted have magnitude at most 2^30 for s16 coordinates, and
the product z·PERSP_UNIT and zFactor fit 32 bits, under every legal configuration. -/
def Obligations.UncheckedProductsFitThirtyTwoBits : Prop :=
  ∀ (c : Config) (angle : Nat) (a b : Int), angle < 360 →
    (-32768 ≤ a ∧ a ≤ 32767) → (-32768 ≤ b ∧ b ≤ 32767) →
    (a * (sincos c angle).2 - b * (sincos c angle).1).natAbs ≤ 2 ^ 30 ∧
    (a * (sincos c angle).1 + b * (sincos c angle).2).natAbs ≤ 2 ^ 30 ∧
    (a * c.perspUnit).natAbs < 2 ^ 30 ∧
    (2 ^ c.projShift - (a * c.perspUnit) / 2 ^ c.projShift : Int).natAbs < 2 ^ 31

/-- R111: at 0 and 180 degrees the rotation is the identity, at 90 it is (x, −z, y), at 270 it is (−x, −z, −y), for
every vertex and under every legal SINTAB; and the screen coordinates at angle 0. -/
def Obligations.ExactAnglesPermuteCoordinates : Prop :=
  ∀ (c : Config) (v : IntVec3),
    (∀ w, VertexRule c (sincos c 0).1 (sincos c 0).2 v w → (w.x3, w.y3, w.z2) = (v.x, v.y, v.z) ∧
      w.sx = (v.x * (2 ^ c.projShift - (v.z * c.perspUnit) / 2 ^ c.projShift)) / 2 ^ c.projShift + c.centreX ∧
      w.sy = (v.y * (2 ^ c.projShift - (v.z * c.perspUnit) / 2 ^ c.projShift)) / 2 ^ c.projShift + c.centreY) ∧
    (∀ w, VertexRule c (sincos c 90).1 (sincos c 90).2 v w → (w.x3, w.y3, w.z2) = (v.x, -v.z, v.y)) ∧
    (∀ w, VertexRule c (sincos c 180).1 (sincos c 180).2 v w → (w.x3, w.y3, w.z2) = (v.x, v.y, v.z)) ∧
    (∀ w, VertexRule c (sincos c 270).1 (sincos c 270).2 v w → (w.x3, w.y3, w.z2) = (-v.x, -v.z, -v.y))

/-- R11: under the reference configuration XFORM raises no fault at any angle of 0 to 359, and every entry of TP has
68 ≤ x ≤ 248, 40 ≤ y ≤ 216 and −87 ≤ z ≤ 86. -/
def Obligations.ReferenceAnimationStaysOnScreen : Prop :=
  ∀ s : State, s.cfg = configReference → s.angle.toNat < 360 →
    ∃ t, exec .xform s = .next t ∧ t.fault = s.fault ∧ t.cause = s.cause ∧ t.tpvalid = true ∧
      ∀ i : Fin 8,
        (68 ≤ t.tp[i].x.toInt ∧ t.tp[i].x.toInt ≤ 248) ∧
        (40 ≤ t.tp[i].y.toInt ∧ t.tp[i].y.toInt ≤ 216) ∧
        (-87 ≤ t.tp[i].z.toInt ∧ t.tp[i].z.toInt ≤ 86)

/-- R113: XFORM is a function of ANGLE and the configuration alone: from any two states that agree on them, both runs
complete with the same SIN, COS and TP, or both fault with the same cause and information. -/
def Obligations.XformForgetsHistory : Prop :=
  ∀ s s' : State, s.cfg = s'.cfg → s.angle = s'.angle →
    ∃ t t', exec .xform s = .next t ∧ exec .xform s' = .next t' ∧
      ((t.sin = t'.sin ∧ t.cos = t'.cos ∧ t.tp = t'.tp ∧ t.tpvalid = true ∧ t'.tpvalid = true ∧
        t.fault = s.fault ∧ t'.fault = s'.fault) ∨
       (t.fault = true ∧ t'.fault = true ∧ t.cause = t'.cause ∧ t.finfo = t'.finfo ∧
        t.tp = s.tp ∧ t'.tp = s'.tp ∧ t.tpvalid = s.tpvalid ∧ t'.tpvalid = s'.tpvalid))

/-! ### SETPIX, LINE, EDGE -/

/-- 20_memory.md sections 3 and 5: what finishPixels does with a list of SetPixel calls. They are made in order, and a
first call that has made its read already writes back the byte it read, `v` (the model's `held`, log 9). Which calls a
command makes is said by LineChecksThenDraws and EdgeChecksThenDraws. -/
def Obligations.FinishPixelsIsTheCallSequence : Prop :=
  ∀ (base : Word) (m : Memory) (v : Byte) (p : Pixel) (ps : List Pixel),
    finishPixels base m none [] = m ∧
    finishPixels base m none (p :: ps) =
      finishPixels base (m.write (pixelAddr base p) (m.read (pixelAddr base p) ||| pixelMask p)) none ps ∧
    finishPixels base m (some v) (p :: ps) = finishPixels base (m.write (pixelAddr base p) (v ||| pixelMask p)) none ps

/-- R132: SETPIX faults COORD_RANGE with y and x, 16 bits each, in FINFO when (P0X, P0Y) is off the screen; else it
ORs the pixel's mask into the one byte at (FBBASE + 40·y + x div 8) mod 2^32 and completes. Nothing else changes.
The model's `drawn` and `held` (log 9) are 0 and none unless another agent accessed memory since the command's issue:
then the call may have been made already, or have made its read already. -/
def Obligations.SetpixOrsOneBit : Prop :=
  ∀ (s : State) (b : Buf) (x y : Int), s.p0x.toInt = x → s.p0y.toInt = y →
    (OnScreen (x, y) →
      ∀ (base : Word) (a : Nat), base = (match b with | .fb0 => s.fbbase0 | .fb1 => s.fbbase1) →
        a = (base.toNat + 40 * y.toNat + x.toNat / 8) % 2 ^ 32 →
        (s.drawn = 0 → s.held = none →
          exec (.setpix b) s = .next
            { s with mem := s.mem.write a (s.mem.read a ||| 0x80#8 >>> (x.toNat % 8)), busy := false }) ∧
        (∀ v, s.drawn = 0 → s.held = some v →
          exec (.setpix b) s = .next
            { s with mem := s.mem.write a (v ||| 0x80#8 >>> (x.toNat % 8)), held := none, busy := false }) ∧
        (s.drawn ≠ 0 → exec (.setpix b) s = .next { s with drawn := 0, held := none, busy := false })) ∧
    (¬OnScreen (x, y) →
      exec (.setpix b) s = .next
        { s with
          fault := true, cause := .coordRange,
          finfo := s.p0y.extractLsb' 0 16 ++ s.p0x.extractLsb' 0 16, busy := false })

/-- R133: LINE checks P0, then P1; a point off the screen faults COORD_RANGE with that point in FINFO, else the SetPixel
calls of the segment that are still to be made (all of them, unless another agent accessed memory meanwhile: `drawn`
and `held`, log 9) are made in the selected framebuffer, in order. Nothing else changes. -/
def Obligations.LineChecksThenDraws : Prop :=
  ∀ (s : State) (b : Buf) (p q : Pixel), p = (s.p0x.toInt, s.p0y.toInt) → q = (s.p1x.toInt, s.p1y.toInt) →
    (¬OnScreen p →
      exec (.line b) s = .next
        { s with
          fault := true, cause := .coordRange,
          finfo := s.p0y.extractLsb' 0 16 ++ s.p0x.extractLsb' 0 16, busy := false }) ∧
    (OnScreen p → ¬OnScreen q →
      exec (.line b) s = .next
        { s with
          fault := true, cause := .coordRange,
          finfo := s.p1y.extractLsb' 0 16 ++ s.p1x.extractLsb' 0 16, busy := false }) ∧
    (OnScreen p → OnScreen q →
      exec (.line b) s = .next
        { s with
          mem := finishPixels (match b with | .fb0 => s.fbbase0 | .fb1 => s.fbbase1) s.mem s.held
            ((linePixels p q).drop s.drawn),
          drawn := 0, held := none, busy := false })

/-- R134: EDGE faults EDGE_INDEX, then TP_INVALID, then COORD_RANGE on the first and on the second vertex of the
edge; else it makes the SetPixel calls of the segment between the two TP entries that are still to be made (`drawn` and
`held`, log 9). Nothing else changes. -/
def Obligations.EdgeChecksThenDraws : Prop :=
  ∀ (s : State) (b : Buf) (e : Nat),
    (12 ≤ e →
      exec (.edge b e) s = .next
        { s with fault := true, cause := .edgeIndex, finfo := BitVec.ofNat 32 e, busy := false }) ∧
    (e < 12 → s.tpvalid = false →
      exec (.edge b e) s = .next { s with fault := true, cause := .tpInvalid, finfo := 0, busy := false }) ∧
    (s.tpvalid = true → ∀ (i j : Fin 8) (p q : Pixel), edgeTable.toList[e]? = some (i, j) →
      p = (s.tp[i].x.toInt, s.tp[i].y.toInt) → q = (s.tp[j].x.toInt, s.tp[j].y.toInt) →
      (¬OnScreen p →
        exec (.edge b e) s = .next
          { s with fault := true, cause := .coordRange, finfo := s.tp[i].y ++ s.tp[i].x, busy := false }) ∧
      (OnScreen p → ¬OnScreen q →
        exec (.edge b e) s = .next
          { s with fault := true, cause := .coordRange, finfo := s.tp[j].y ++ s.tp[j].x, busy := false }) ∧
      (OnScreen p → OnScreen q →
        exec (.edge b e) s = .next
          { s with
            mem := finishPixels (match b with | .fb0 => s.fbbase0 | .fb1 => s.fbbase1) s.mem s.held
              ((linePixels p q).drop s.drawn),
            drawn := 0, held := none, busy := false }))

/-- R34: the twelve pairs, and that they are exactly the pairs of vertices that differ in one coordinate. -/
def Obligations.EdgeTableIsTheCube : Prop :=
  edgeTable.toList = [(0, 1), (1, 2), (2, 3), (3, 0), (4, 5), (5, 6), (6, 7), (7, 4), (0, 4), (1, 5), (2, 6), (3, 7)] ∧
  ∀ i j : Fin 8,
    ((i, j) ∈ edgeTable.toList ∨ (j, i) ∈ edgeTable.toList) ↔
      ([decide ((modelVertex 1 i.val).x ≠ (modelVertex 1 j.val).x), decide ((modelVertex 1 i.val).y ≠ (modelVertex 1 j.val).y),
        decide ((modelVertex 1 i.val).z ≠ (modelVertex 1 j.val).z)].count true = 1)

/-- 42_raster.md section 2: a vertical segment goes up from the lower y, a horizontal one from the lower x, and a
single point is one pixel. -/
def Obligations.StraightSegmentsAscend : Prop :=
  (∀ x y0 y1 : Int, linePixels (x, y0) (x, y1) =
    (List.range ((max y0 y1 - min y0 y1).toNat + 1)).map fun (k : Nat) => (x, min y0 y1 + k)) ∧
  (∀ x0 x1 y : Int, x0 ≠ x1 → linePixels (x0, y) (x1, y) =
    (List.range ((max x0 x1 - min x0 x1).toNat + 1)).map fun (k : Nat) => (min x0 x1 + k, y)) ∧
  (∀ p : Pixel, linePixels p p = [p])

/-- R131: the closed form of the general case. After transposition and ordering the i-th pixel is at major coordinate
x0 + i and minor coordinate y0 + ystep·k(i), k(i) = ceil((i + 1)·dy / dx) − 1, with k(0) = 0 and k(dx) = dy; the first
pixel whose minor coordinate has moved is i = floor(dx / dy). -/
def Obligations.GeneralCaseClosedForm : Prop :=
  ∀ (p q a b : Pixel) (dx dy ystep : Int) (k : Int → Int),
    p.1 ≠ q.1 → p.2 ≠ q.2 → (a, b) = ordered (majorMinor p q) →
    dx = b.1 - a.1 → dy = |b.2 - a.2| → ystep = (if a.2 < b.2 then 1 else -1) →
    (∀ i, k i = -((-((i + 1) * dy)) / dx) - 1) →
    linePixels p q = ((List.range (dx.toNat + 1)).map fun (i : Nat) =>
      if |q.2 - p.2| > |q.1 - p.1| then (a.2 + ystep * k i, a.1 + (i : Int)) else (a.1 + (i : Int), a.2 + ystep * k i)) ∧
    (1 ≤ dy ∧ dy ≤ dx) ∧ k 0 = 0 ∧ k dx = dy ∧
    (∀ i, 0 ≤ i → i < dx / dy → k i = 0) ∧ 0 < k (dx / dy)

/-- 42_raster.md section 3: drawLine sets both endpoint pixels and is an 8-connected path of distinct neighbours. -/
def Obligations.LineIsAConnectedPathBetweenItsEndpoints : Prop :=
  ∀ p q : Pixel, OnScreen p → OnScreen q →
    p ∈ linePixels p q ∧ q ∈ linePixels p q ∧
    ∀ (k : Nat) (h : k + 1 < (linePixels p q).length),
      (linePixels p q)[k + 1] ≠ (linePixels p q)[k] ∧
      |(linePixels p q)[k + 1].1 - (linePixels p q)[k].1| ≤ 1 ∧
      |(linePixels p q)[k + 1].2 - (linePixels p q)[k].2| ≤ 1

/-- 42_raster.md section 3: every pixel of a line lies in the box of its endpoints, no pixel is visited twice, and
there are max(|x1 − x0|, |y1 − y0|) + 1 of them. -/
def Obligations.LineStaysInItsBoxWithoutRepeats : Prop :=
  ∀ p q : Pixel, OnScreen p → OnScreen q →
    (∀ r ∈ linePixels p q, (min p.1 q.1 ≤ r.1 ∧ r.1 ≤ max p.1 q.1) ∧ (min p.2 q.2 ≤ r.2 ∧ r.2 ≤ max p.2 q.2)) ∧
    (linePixels p q).Nodup ∧
    (linePixels p q).length = max (q.1 - p.1).natAbs (q.2 - p.2).natAbs + 1

/-- 42_raster.md section 3: a segment and its reverse set the same pixels. -/
def Obligations.LineIgnoresItsDirection : Prop :=
  ∀ p q : Pixel, OnScreen p → OnScreen q → ∀ r, r ∈ linePixels p q ↔ r ∈ linePixels q p

/-- 42_raster.md section 3: mirroring both endpoints along the minor axis mirrors the pixel set (y for a segment that
is not steep, x for a steep one); vertical and horizontal segments mirror both ways. -/
def Obligations.LineMirrorsAlongItsMinorAxis : Prop :=
  ∀ (p q : Pixel) (m : Int),
    ((|q.2 - p.2| ≤ |q.1 - p.1| ∨ p.1 = q.1 ∨ p.2 = q.2) →
      ∀ r : Pixel, r ∈ linePixels p q ↔ (r.1, m - r.2) ∈ linePixels (p.1, m - p.2) (q.1, m - q.2)) ∧
    ((|q.1 - p.1| < |q.2 - p.2| ∨ p.1 = q.1 ∨ p.2 = q.2) →
      ∀ r : Pixel, r ∈ linePixels p q ↔ (m - r.1, r.2) ∈ linePixels (m - p.1, p.2) (m - q.1, q.2))

/-- The framebuffer after a drawing command that does not fault: a pixel of the screen is set exactly if it was set
before or is one of the command's pixels that are still to be set, and no byte outside the 10240 of the framebuffer
changes. `held = none`: no other agent's access has come between the read and the write of a call (log 9). -/
def Obligations.DrawnPixelsAreExactlyThePlan : Prop :=
  ∀ (i : Instr) (s : State) (b : Buf) (ps : List Pixel), s.mem.wf = true → s.held = none →
    drawPlan i s = some (b, .ok ps) →
    ∃ t, exec i s = .next t ∧
      (∀ p, OnScreen p →
        (pixelOn (fbBase b s) t.mem p = true ↔ pixelOn (fbBase b s) s.mem p = true ∨ p ∈ ps.drop s.drawn)) ∧
      (∀ a, ¬inFramebuffer (fbBase b s) a → t.mem.read a = s.mem.read a)

/-- The case that DrawnPixelsAreExactlyThePlan leaves: the next call has made its read already, the byte `v`, when
another agent accesses memory (20_memory.md section 3; `held`, log 9). That call writes back `v` with its bit, so the
byte ends with the bits of `v`, whatever stands in memory by then, and with those of the pixels still to be set. -/
def Obligations.HeldByteIsWrittenBack : Prop :=
  ∀ (i : Instr) (s : State) (b : Buf) (ps : List Pixel) (v : Byte), s.mem.wf = true → s.held = some v →
    drawPlan i s = some (b, .ok ps) →
    ∃ t, exec i s = .next t ∧ t.held = none ∧
      (∀ a, ¬inFramebuffer (fbBase b s) a → t.mem.read a = s.mem.read a) ∧
      (ps.drop s.drawn = [] → t.mem = s.mem) ∧
      (∀ r rest, ps.drop s.drawn = r :: rest → ∀ p, OnScreen p →
        (pixelOn (fbBase b s) t.mem p = true ↔
          (if pixelAddr (fbBase b s) p = pixelAddr (fbBase b s) r then v.getLsbD (7 - p.1.toNat % 8) = true
           else pixelOn (fbBase b s) s.mem p = true) ∨ p ∈ r :: rest))

/-- R135: SETPIX, LINE and EDGE write no register but the status changes of completion or fault. In memory only the
bytes of the pixels still to be set may change, and none when it faults (`drawn` and `held` say which pixels another
agent has seen set already, log 9). -/
def Obligations.DrawingLeavesEverythingElse : Prop :=
  ∀ (i : Instr) (s : State) (b : Buf) (plan : Except FaultRecord (List Pixel)), drawPlan i s = some (b, plan) →
    ∃ t, exec i s = .next t ∧
      t.cmd = s.cmd ∧ t.tpvalid = s.tpvalid ∧ t.angle = s.angle ∧ t.sin = s.sin ∧ t.cos = s.cos ∧
      t.p0x = s.p0x ∧ t.p0y = s.p0y ∧ t.p1x = s.p1x ∧ t.p1y = s.p1y ∧ t.fbbase0 = s.fbbase0 ∧
      t.fbbase1 = s.fbbase1 ∧ t.tp = s.tp ∧ t.cfg = s.cfg ∧ t.inputs = s.inputs ∧ t.hostLog = s.hostLog ∧
      t.freeCtr = s.freeCtr ∧ t.busy = false ∧
      (∀ f, plan = .error f → t.mem = s.mem ∧ t.fault = true ∧ t.cause = f.cause ∧ t.finfo = f.info) ∧
      (∀ ps, plan = .ok ps → t.fault = s.fault ∧ t.cause = s.cause ∧ t.finfo = s.finfo ∧
        ∀ a, (∀ p ∈ ps.drop s.drawn, pixelAddr (fbBase b s) p ≠ a) → t.mem.read a = s.mem.read a)

/-- 20_memory.md section 3: a command that no other agent's access has cut between a read and a write (`held = none`,
log 9) clears no bit of memory. -/
def Obligations.CommandsOnlySetBits : Prop :=
  ∀ (i : Instr) (s t : State), s.mem.wf = true → s.held = none → exec i s = .next t →
    ∀ a, t.mem.read a &&& s.mem.read a = s.mem.read a

/-- 20_memory.md section 5: the final memory depends only on which pixels are set, not on their order or number. -/
def Obligations.DrawOrderDoesNotMatter : Prop :=
  ∀ (base : Word) (m : Memory) (ps qs : List Pixel), m.wf = true → (∀ p, p ∈ ps ↔ p ∈ qs) →
    setPixels base m ps = setPixels base m qs

/-- 42_raster.md section 4: drawing the same line a second time changes nothing of memory. -/
def Obligations.LineTwiceIsLineOnce : Prop :=
  ∀ (s t : State) (b : Buf), s.mem.wf = true → s.drawn = 0 → s.held = none → exec (.line b) s = .next t →
    ∃ u, exec (.line b) t = .next u ∧ u.mem = t.mem

/-! ### Faults -/

/-- R24: bit 0 of STATUS is BUSY, bit 1 FAULT, bit 2 TPVALID, and bits 3 and 31:8 read 0. -/
def Obligations.StatusIsItsFields : Prop :=
  ∀ s : State,
    (statusWord s).getLsbD 0 = s.busy ∧ (statusWord s).getLsbD 1 = s.fault ∧ (statusWord s).getLsbD 2 = s.tpvalid ∧
    (statusWord s).getLsbD 3 = false ∧ (statusWord s).extractLsb' 4 4 = causeCode s.cause ∧
    (statusWord s).extractLsb' 8 24 = 0

/-- R168: a command that faults has changed nothing but FAULT, CAUSE, FINFO and BUSY, whatever was pending: the step may
have taken an explicit turn of the block off the inputs (the model's own field, log 6). -/
def Obligations.FaultsArePrecise : Prop :=
  ∀ s t : State, s.fault = false → step s = .next t → t.fault = true →
    t = { s with inputs := t.inputs, fault := true, cause := t.cause, finfo := t.finfo, busy := false } ∧
    (t.inputs = s.inputs ∨ s.inputs = .blockTurn :: t.inputs)

/-- R160: the fault causes, complete. A step that raises a fault runs a latched word; bits 7:4 of STATUS are then the
code of one of the rows, the word is one of the row's commands, the row's condition holds (with the order of the checks
of R169), and FINFO is the row's: the faulting point is P0, P1 or the TP entry of the edge, the faulting check the first
that fails. -/
def Obligations.FaultCausesAreComplete : Prop :=
  ∀ s t : State, s.fault = false → step s = .next t → t.fault = true →
    s.busy = true ∧
    (((statusWord t).extractLsb' 4 4 = 1#4 ∧ (∀ i, decode s.cmd ≠ .ok i) ∧ t.finfo = s.cmd) ∨
     ((statusWord t).extractLsb' 4 4 = 2#4 ∧ (decode s.cmd = .ok .sincos ∨ decode s.cmd = .ok .xform) ∧
      360 ≤ s.angle.toNat ∧ t.finfo = s.angle) ∨
     ((statusWord t).extractLsb' 4 4 = 3#4 ∧ decode s.cmd = .ok .xform ∧ s.angle.toNat < 360 ∧
      ∃ (W : Fin 8 → VertexWork) (i : Fin 8) (stage : Nat),
        (∀ j, VertexRule s.cfg (sincos s.cfg s.angle.toNat).1 (sincos s.cfg s.angle.toNat).2
          (modelVertex s.cfg.cubeSize j.val) (W j)) ∧
        (∀ j < i, ∀ k, 1 ≤ k → k ≤ 5 → stagePasses (W j) k) ∧
        (∀ k, 1 ≤ k → k < stage → stagePasses (W i) k) ∧
        1 ≤ stage ∧ stage ≤ 5 ∧ ¬stagePasses (W i) stage ∧ t.finfo = BitVec.ofNat 32 (i.val + 16 * stage)) ∨
     ((statusWord t).extractLsb' 4 4 = 4#4 ∧
      ∃ p : Pixel, ¬OnScreen p ∧ t.finfo = BitVec.ofInt 32 (p.2 % 65536 * 65536 + p.1 % 65536) ∧
        ((∃ b, decode s.cmd = .ok (.setpix b) ∧ p = point0 s) ∨
         (∃ b, decode s.cmd = .ok (.line b) ∧ (p = point0 s ∨ (OnScreen (point0 s) ∧ p = point1 s))) ∨
         (∃ (b : Buf) (e : Nat) (i j : Fin 8), decode s.cmd = .ok (.edge b e) ∧ s.tpvalid = true ∧
          edgeTable.toList[e]? = some (i, j) ∧ (p = tpPoint s i ∨ (OnScreen (tpPoint s i) ∧ p = tpPoint s j))))) ∨
     ((statusWord t).extractLsb' 4 4 = 5#4 ∧
      ∃ b e, decode s.cmd = .ok (.edge b e) ∧ 12 ≤ e ∧ t.finfo = BitVec.ofNat 32 e) ∨
     ((statusWord t).extractLsb' 4 4 = 6#4 ∧
      (∃ b e, decode s.cmd = .ok (.edge b e) ∧ e < 12) ∧ s.tpvalid = false ∧ t.finfo = 0))

/-- R170: a halted block keeps every register and accepts nothing but the RESET word and the hardware reset; memory
then changes only by the write of another agent. -/
def Obligations.OnlyResetLeavesTheFaultState : Prop :=
  ∀ s t : State, s.fault = true → s.busy = false → step s = .next t →
    (∃ rest, s.inputs = .hardwareReset :: rest) ∨
    (∃ rest, s.inputs = .write 0x00 .word 0x000000FF#32 :: rest) ∨
    (t = { s with inputs := t.inputs, hostLog := t.hostLog, freeCtr := t.freeCtr, mem := t.mem } ∧
      (t.mem = s.mem ∨ ∃ a v rest, s.inputs = .memWrite a v :: rest))

/-- R32: TPVALID rises only when an XFORM completes and falls only by reset. -/
def Obligations.TpvalidRisesByXformAndFallsByReset : Prop :=
  ∀ s t : State, Inv s → step s = .next t →
    (s.tpvalid = false → t.tpvalid = true →
      s.busy = true ∧ decode s.cmd = .ok .xform ∧ t.fault = s.fault ∧ t.busy = false) ∧
    (s.tpvalid = true → t.tpvalid = false →
      (∃ rest, s.inputs = .hardwareReset :: rest) ∨
      (s.busy = false ∧ ∃ rest, s.inputs = .write 0x00 .word 0x000000FF#32 :: rest))

/-- 10_state.md sections 2 and 3: which steps may change a register or a field of STATUS, when the input is no reset.
FAULT, CAUSE and FINFO change only by fault entry; BUSY rises by the acceptance of a command and falls when the block
has executed it. -/
def Obligations.RegistersChangeOnlyByTheirWriters : Prop :=
  ∀ s t : State, Inv s → step s = .next t → (∀ rest, s.inputs ≠ .hardwareReset :: rest) →
    (∀ rest, s.inputs ≠ .write 0x00 .word 0x000000FF#32 :: rest) →
    (t.sin ≠ s.sin ∨ t.cos ≠ s.cos → s.busy = true ∧ (decode s.cmd = .ok .sincos ∨ decode s.cmd = .ok .xform)) ∧
    (t.tp ≠ s.tp → s.busy = true ∧ decode s.cmd = .ok .xform) ∧
    (t.cmd ≠ s.cmd → ∃ rest, s.inputs = .write 0x00 .word t.cmd :: rest) ∧
    (t.angle ≠ s.angle → ∃ rest, s.inputs = .write 0x0C .word t.angle :: rest) ∧
    (t.p0x ≠ s.p0x → ∃ rest, s.inputs = .write 0x18 .word t.p0x :: rest) ∧
    (t.p0y ≠ s.p0y → ∃ rest, s.inputs = .write 0x1C .word t.p0y :: rest) ∧
    (t.p1x ≠ s.p1x → ∃ rest, s.inputs = .write 0x20 .word t.p1x :: rest) ∧
    (t.p1y ≠ s.p1y → ∃ rest, s.inputs = .write 0x24 .word t.p1y :: rest) ∧
    (t.fbbase0 ≠ s.fbbase0 → ∃ rest, s.inputs = .write 0x28 .word t.fbbase0 :: rest) ∧
    (t.fbbase1 ≠ s.fbbase1 → ∃ rest, s.inputs = .write 0x2C .word t.fbbase1 :: rest) ∧
    (t.tpvalid ≠ s.tpvalid → t.tpvalid = true ∧ s.busy = true ∧ decode s.cmd = .ok .xform) ∧
    (t.fault ≠ s.fault ∨ t.cause ≠ s.cause ∨ t.finfo ≠ s.finfo →
      s.busy = true ∧ s.fault = false ∧ t.fault = true ∧ t.busy = false) ∧
    (t.busy ≠ s.busy →
      (t.busy = true ∧ s.fault = false ∧ ∃ rest, s.inputs = .write 0x00 .word t.cmd :: rest) ∨
      (t.busy = false ∧ (s.inputs = [] ∨ (∃ rest, s.inputs = .blockTurn :: rest) ∨ ∃ rest, s.inputs = .wait :: rest)))

/-- 20_memory.md section 2: only a drawing command in flight and the writes of other agents change memory. -/
def Obligations.MemoryChangesOnlyByDrawingOrOtherAgents : Prop :=
  ∀ s t : State, step s = .next t → t.mem ≠ s.mem →
    (s.busy = true ∧ ∃ b, decode s.cmd = .ok (.setpix b) ∨ decode s.cmd = .ok (.line b) ∨
      ∃ e, decode s.cmd = .ok (.edge b e)) ∨
    (∃ a v rest, s.inputs = .memWrite a v :: rest)

/-- The configuration is fixed: no step changes it (the model's own field, log 1). -/
def Obligations.ConfigurationNeverChanges : Prop :=
  ∀ s t : State, step s = .next t → t.cfg = s.cfg

/-! ### Reset -/

/-- R141: RESET completes in every state: every register and flag takes its reset value, external memory is untouched,
and nothing is said of TP, which becomes unspecified. -/
def Obligations.ResetCommandRestoresTheRegisters : Prop :=
  ∀ s : State, ∃ tp,
    exec .reset s = .next
      { cmd := 0, busy := false, fault := false, tpvalid := false, cause := .none, finfo := 0, angle := 0, sin := 0,
        cos := 0, p0x := 0, p0y := 0, p1x := 0, p1y := 0, fbbase0 := 0, fbbase1 := 0, tp := tp, mem := s.mem,
        drawn := 0, held := none, cfg := s.cfg, inputs := s.inputs, hostLog := s.hostLog, freeCtr := s.freeCtr + 1 }

/-- 10_state.md section 6: every register and flag with a reset value holds it in the reset state. -/
def Obligations.ResetStateIsTheTable : Prop :=
  State.reset.cmd = 0 ∧ State.reset.busy = false ∧ State.reset.fault = false ∧ State.reset.tpvalid = false ∧
  causeCode State.reset.cause = 0 ∧ State.reset.finfo = 0 ∧ State.reset.angle = 0 ∧ State.reset.sin = 0 ∧
  State.reset.cos = 0 ∧ State.reset.p0x = 0 ∧ State.reset.p0y = 0 ∧ State.reset.p1x = 0 ∧ State.reset.p1y = 0 ∧
  State.reset.fbbase0 = 0 ∧ State.reset.fbbase1 = 0

/-- R182: a hardware reset acts at once, in every state. It restores the registers, and of a drawing command in flight
it leaves in memory the bits of some first part of its remaining SetPixel calls; without one, memory is untouched. -/
def Obligations.HardwareResetLeavesAFirstPartOfTheDrawing : Prop :=
  ∀ (s : State) (rest : List Input), s.inputs = .hardwareReset :: rest →
    ∃ tp n mem,
      step s = .next
        { cmd := 0, busy := false, fault := false, tpvalid := false, cause := .none, finfo := 0, angle := 0, sin := 0,
          cos := 0, p0x := 0, p0y := 0, p1x := 0, p1y := 0, fbbase0 := 0, fbbase1 := 0, tp := tp, mem := mem,
          drawn := 0, held := none, cfg := s.cfg, inputs := rest, hostLog := s.hostLog, freeCtr := n } ∧
      (flight s = none → mem = s.mem) ∧
      (∀ base ps, flight s = some (base, ps) → ∃ k, mem = finishPixels base s.mem s.held ((ps.drop s.drawn).take k))

/-! ### Other agents on memory -/

/-- 20_memory.md section 3 and U6: another agent's write during a drawing command, followed by the block's step. Bytes
at other addresses end as if there had been no foreign write; the byte itself ends as the foreign value ORed with the
bits of some last part of the remaining calls, or, if the write fell between the read and the write of a call and was
lost, as if there had been none. -/
def Obligations.ForeignWriteInterleavesWithTheDrawing : Prop :=
  ∀ (s : State) (addr : Word) (v : Byte) (base : Word) (ps : List Pixel),
    s.mem.wf = true → s.held = none → s.inputs = [.memWrite addr v] → flight s = some (base, ps) →
    ∃ t u, step s = .next t ∧ step t = .next u ∧ u.busy = false ∧
      (∀ a, a ≠ addr.toNat → u.mem.read a = (setPixels base s.mem (ps.drop s.drawn)).read a) ∧
      (u.mem.read addr.toNat = (setPixels base s.mem (ps.drop s.drawn)).read addr.toNat ∨
       ∃ k, u.mem.read addr.toNat = (setPixels base (s.mem.write addr.toNat v) ((ps.drop s.drawn).drop k)).read addr.toNat)

/-- 70_reset_and_hazards.md section 3: another agent's read returns the byte after some first part of the remaining
calls of a drawing command in flight, what is left of the command does not change by it, and with none in flight it is
the byte of memory; it changes no register. -/
def Obligations.ForeignReadSeesAFirstPartOfTheDrawing : Prop :=
  ∀ (s : State) (addr : Word) (rest : List Input), s.inputs = .memRead addr :: rest →
    ∃ m n d h v,
      step s = .next
        { s with inputs := rest, mem := m, drawn := d, held := h, freeCtr := n, hostLog := .byte v :: s.hostLog } ∧
      v = m.read addr.toNat ∧
      (flight s = none → m = s.mem ∧ d = s.drawn ∧ h = s.held) ∧
      (∀ base ps, flight s = some (base, ps) → s.drawn ≤ ps.length →
        (∃ k, m = finishPixels base s.mem s.held ((ps.drop s.drawn).take k)) ∧
        finishPixels base m h (ps.drop d) = finishPixels base s.mem s.held (ps.drop s.drawn))

/-! ### Invariants and whole-machine results -/

/-- The reset state satisfies the invariant. -/
def Obligations.ResetStateSatisfiesTheInvariant : Prop := Inv State.reset

/-- Every step from a state that satisfies the invariant ends in one that does: memory stays canonical, BUSY and FAULT
are never both 1, CAUSE and FINFO are 0 without a fault, SIN and COS stay in range, and TP with TPVALID = 1 is the
result of an XFORM at a legal angle. -/
def Obligations.EveryStepKeepsTheInvariant : Prop :=
  ∀ s t : State, Inv s → step s = .next t → Inv t

/-- Under the reference configuration, with TPVALID = 1, no EDGE of index 0 to 11 ever faults: every edge of every
frame lies on the screen. -/
def Obligations.ReferenceEdgesNeverFault : Prop :=
  ∀ (s : State) (b : Buf) (e : Nat), Inv s → s.cfg = configReference → s.tpvalid = true → e < 12 →
    ∃ t, exec (.edge b e) s = .next t ∧ t.fault = s.fault ∧ t.cause = s.cause ∧ t.busy = false

/-- R10: what makes a configuration legal, the sine table against the real sine. -/
def Obligations.LegalConfigurationsAreThoseOfTheRule : Prop :=
  ∀ p : Params, p.legal = true ↔
    (1 ≤ p.cubeSize ∧ p.cubeSize ≤ 32767) ∧ (p.projShift ≤ 15 ∧ p.projShift ≠ 14) ∧ p.perspUnit ≤ 32767 ∧
    (-32768 ≤ p.centreX ∧ p.centreX ≤ 32767) ∧ (-32768 ≤ p.centreY ∧ p.centreY ≤ 32767) ∧
    p.sinTab.length = 90 ∧
    ∀ d < 90, p.sinTab.getD d 0 ≤ 16384 ∧
      |((p.sinTab.getD d 0 : Nat) : ℝ) - 16384 * Real.sin ((d : ℝ) * Real.pi / 180)| < 1

end Statements
end

