-- ==== Sys2Proof/Laws/State.lean ====
section
/-! SUPPORT. What each update of the state does to each field: one lemma a field, true by rfl. -/

namespace Sys2Proof.Machine

@[simp] theorem complete_cmd (s : State) : (complete s).cmd = s.cmd := rfl
@[simp] theorem complete_busy (s : State) : (complete s).busy = false := rfl
@[simp] theorem complete_fault (s : State) : (complete s).fault = s.fault := rfl
@[simp] theorem complete_tpvalid (s : State) : (complete s).tpvalid = s.tpvalid := rfl
@[simp] theorem complete_cause (s : State) : (complete s).cause = s.cause := rfl
@[simp] theorem complete_finfo (s : State) : (complete s).finfo = s.finfo := rfl
@[simp] theorem complete_angle (s : State) : (complete s).angle = s.angle := rfl
@[simp] theorem complete_sin (s : State) : (complete s).sin = s.sin := rfl
@[simp] theorem complete_cos (s : State) : (complete s).cos = s.cos := rfl
@[simp] theorem complete_p0x (s : State) : (complete s).p0x = s.p0x := rfl
@[simp] theorem complete_p0y (s : State) : (complete s).p0y = s.p0y := rfl
@[simp] theorem complete_p1x (s : State) : (complete s).p1x = s.p1x := rfl
@[simp] theorem complete_p1y (s : State) : (complete s).p1y = s.p1y := rfl
@[simp] theorem complete_fbbase0 (s : State) : (complete s).fbbase0 = s.fbbase0 := rfl
@[simp] theorem complete_fbbase1 (s : State) : (complete s).fbbase1 = s.fbbase1 := rfl
@[simp] theorem complete_tp (s : State) : (complete s).tp = s.tp := rfl
@[simp] theorem complete_mem (s : State) : (complete s).mem = s.mem := rfl
@[simp] theorem complete_drawn (s : State) : (complete s).drawn = s.drawn := rfl
@[simp] theorem complete_held (s : State) : (complete s).held = s.held := rfl
@[simp] theorem complete_cfg (s : State) : (complete s).cfg = s.cfg := rfl
@[simp] theorem complete_inputs (s : State) : (complete s).inputs = s.inputs := rfl
@[simp] theorem complete_hostLog (s : State) : (complete s).hostLog = s.hostLog := rfl
@[simp] theorem complete_freeCtr (s : State) : (complete s).freeCtr = s.freeCtr := rfl

@[simp] theorem raiseFault_cmd (r : FaultRecord) (s : State) : (raiseFault r s).cmd = s.cmd := rfl
@[simp] theorem raiseFault_busy (r : FaultRecord) (s : State) : (raiseFault r s).busy = false := rfl
@[simp] theorem raiseFault_fault (r : FaultRecord) (s : State) : (raiseFault r s).fault = true := rfl
@[simp] theorem raiseFault_tpvalid (r : FaultRecord) (s : State) : (raiseFault r s).tpvalid = s.tpvalid := rfl
@[simp] theorem raiseFault_cause (r : FaultRecord) (s : State) : (raiseFault r s).cause = r.cause := rfl
@[simp] theorem raiseFault_finfo (r : FaultRecord) (s : State) : (raiseFault r s).finfo = r.info := rfl
@[simp] theorem raiseFault_angle (r : FaultRecord) (s : State) : (raiseFault r s).angle = s.angle := rfl
@[simp] theorem raiseFault_sin (r : FaultRecord) (s : State) : (raiseFault r s).sin = s.sin := rfl
@[simp] theorem raiseFault_cos (r : FaultRecord) (s : State) : (raiseFault r s).cos = s.cos := rfl
@[simp] theorem raiseFault_p0x (r : FaultRecord) (s : State) : (raiseFault r s).p0x = s.p0x := rfl
@[simp] theorem raiseFault_p0y (r : FaultRecord) (s : State) : (raiseFault r s).p0y = s.p0y := rfl
@[simp] theorem raiseFault_p1x (r : FaultRecord) (s : State) : (raiseFault r s).p1x = s.p1x := rfl
@[simp] theorem raiseFault_p1y (r : FaultRecord) (s : State) : (raiseFault r s).p1y = s.p1y := rfl
@[simp] theorem raiseFault_fbbase0 (r : FaultRecord) (s : State) : (raiseFault r s).fbbase0 = s.fbbase0 := rfl
@[simp] theorem raiseFault_fbbase1 (r : FaultRecord) (s : State) : (raiseFault r s).fbbase1 = s.fbbase1 := rfl
@[simp] theorem raiseFault_tp (r : FaultRecord) (s : State) : (raiseFault r s).tp = s.tp := rfl
@[simp] theorem raiseFault_mem (r : FaultRecord) (s : State) : (raiseFault r s).mem = s.mem := rfl
@[simp] theorem raiseFault_drawn (r : FaultRecord) (s : State) : (raiseFault r s).drawn = s.drawn := rfl
@[simp] theorem raiseFault_held (r : FaultRecord) (s : State) : (raiseFault r s).held = s.held := rfl
@[simp] theorem raiseFault_cfg (r : FaultRecord) (s : State) : (raiseFault r s).cfg = s.cfg := rfl
@[simp] theorem raiseFault_inputs (r : FaultRecord) (s : State) : (raiseFault r s).inputs = s.inputs := rfl
@[simp] theorem raiseFault_hostLog (r : FaultRecord) (s : State) : (raiseFault r s).hostLog = s.hostLog := rfl
@[simp] theorem raiseFault_freeCtr (r : FaultRecord) (s : State) : (raiseFault r s).freeCtr = s.freeCtr := rfl

@[simp] theorem resetBlock_cmd (s : State) : (resetBlock s).cmd = 0 := rfl
@[simp] theorem resetBlock_busy (s : State) : (resetBlock s).busy = false := rfl
@[simp] theorem resetBlock_fault (s : State) : (resetBlock s).fault = false := rfl
@[simp] theorem resetBlock_tpvalid (s : State) : (resetBlock s).tpvalid = false := rfl
@[simp] theorem resetBlock_cause (s : State) : (resetBlock s).cause = Cause.none := rfl
@[simp] theorem resetBlock_finfo (s : State) : (resetBlock s).finfo = 0 := rfl
@[simp] theorem resetBlock_angle (s : State) : (resetBlock s).angle = 0 := rfl
@[simp] theorem resetBlock_sin (s : State) : (resetBlock s).sin = 0 := rfl
@[simp] theorem resetBlock_cos (s : State) : (resetBlock s).cos = 0 := rfl
@[simp] theorem resetBlock_p0x (s : State) : (resetBlock s).p0x = 0 := rfl
@[simp] theorem resetBlock_p0y (s : State) : (resetBlock s).p0y = 0 := rfl
@[simp] theorem resetBlock_p1x (s : State) : (resetBlock s).p1x = 0 := rfl
@[simp] theorem resetBlock_p1y (s : State) : (resetBlock s).p1y = 0 := rfl
@[simp] theorem resetBlock_fbbase0 (s : State) : (resetBlock s).fbbase0 = 0 := rfl
@[simp] theorem resetBlock_fbbase1 (s : State) : (resetBlock s).fbbase1 = 0 := rfl
@[simp] theorem resetBlock_mem (s : State) : (resetBlock s).mem = s.mem := rfl
@[simp] theorem resetBlock_drawn (s : State) : (resetBlock s).drawn = 0 := rfl
@[simp] theorem resetBlock_held (s : State) : (resetBlock s).held = none := rfl
@[simp] theorem resetBlock_cfg (s : State) : (resetBlock s).cfg = s.cfg := rfl
@[simp] theorem resetBlock_inputs (s : State) : (resetBlock s).inputs = s.inputs := rfl
@[simp] theorem resetBlock_hostLog (s : State) : (resetBlock s).hostLog = s.hostLog := rfl
@[simp] theorem resetBlock_freeCtr (s : State) : (resetBlock s).freeCtr = s.freeCtr + 1 := rfl

@[simp] theorem writeSincos_cmd (sc : Int × Int) (s : State) : (writeSincos sc s).cmd = s.cmd := rfl
@[simp] theorem writeSincos_busy (sc : Int × Int) (s : State) : (writeSincos sc s).busy = s.busy := rfl
@[simp] theorem writeSincos_fault (sc : Int × Int) (s : State) : (writeSincos sc s).fault = s.fault := rfl
@[simp] theorem writeSincos_tpvalid (sc : Int × Int) (s : State) : (writeSincos sc s).tpvalid = s.tpvalid := rfl
@[simp] theorem writeSincos_cause (sc : Int × Int) (s : State) : (writeSincos sc s).cause = s.cause := rfl
@[simp] theorem writeSincos_finfo (sc : Int × Int) (s : State) : (writeSincos sc s).finfo = s.finfo := rfl
@[simp] theorem writeSincos_angle (sc : Int × Int) (s : State) : (writeSincos sc s).angle = s.angle := rfl
@[simp] theorem writeSincos_sin (sc : Int × Int) (s : State) : (writeSincos sc s).sin = toHalf sc.1 := rfl
@[simp] theorem writeSincos_cos (sc : Int × Int) (s : State) : (writeSincos sc s).cos = toHalf sc.2 := rfl
@[simp] theorem writeSincos_p0x (sc : Int × Int) (s : State) : (writeSincos sc s).p0x = s.p0x := rfl
@[simp] theorem writeSincos_p0y (sc : Int × Int) (s : State) : (writeSincos sc s).p0y = s.p0y := rfl
@[simp] theorem writeSincos_p1x (sc : Int × Int) (s : State) : (writeSincos sc s).p1x = s.p1x := rfl
@[simp] theorem writeSincos_p1y (sc : Int × Int) (s : State) : (writeSincos sc s).p1y = s.p1y := rfl
@[simp] theorem writeSincos_fbbase0 (sc : Int × Int) (s : State) : (writeSincos sc s).fbbase0 = s.fbbase0 := rfl
@[simp] theorem writeSincos_fbbase1 (sc : Int × Int) (s : State) : (writeSincos sc s).fbbase1 = s.fbbase1 := rfl
@[simp] theorem writeSincos_tp (sc : Int × Int) (s : State) : (writeSincos sc s).tp = s.tp := rfl
@[simp] theorem writeSincos_mem (sc : Int × Int) (s : State) : (writeSincos sc s).mem = s.mem := rfl
@[simp] theorem writeSincos_drawn (sc : Int × Int) (s : State) : (writeSincos sc s).drawn = s.drawn := rfl
@[simp] theorem writeSincos_held (sc : Int × Int) (s : State) : (writeSincos sc s).held = s.held := rfl
@[simp] theorem writeSincos_cfg (sc : Int × Int) (s : State) : (writeSincos sc s).cfg = s.cfg := rfl
@[simp] theorem writeSincos_inputs (sc : Int × Int) (s : State) : (writeSincos sc s).inputs = s.inputs := rfl
@[simp] theorem writeSincos_hostLog (sc : Int × Int) (s : State) : (writeSincos sc s).hostLog = s.hostLog := rfl
@[simp] theorem writeSincos_freeCtr (sc : Int × Int) (s : State) : (writeSincos sc s).freeCtr = s.freeCtr := rfl

@[simp] theorem commitXform_cmd (s : State) : (commitXform s).cmd = s.cmd := rfl
@[simp] theorem commitXform_busy (s : State) : (commitXform s).busy = s.busy := rfl
@[simp] theorem commitXform_fault (s : State) : (commitXform s).fault = s.fault := rfl
@[simp] theorem commitXform_tpvalid (s : State) : (commitXform s).tpvalid = true := rfl
@[simp] theorem commitXform_cause (s : State) : (commitXform s).cause = s.cause := rfl
@[simp] theorem commitXform_finfo (s : State) : (commitXform s).finfo = s.finfo := rfl
@[simp] theorem commitXform_angle (s : State) : (commitXform s).angle = s.angle := rfl
@[simp] theorem commitXform_sin (s : State) : (commitXform s).sin = toHalf (sincos s.cfg (angleOf s)).1 := rfl
@[simp] theorem commitXform_cos (s : State) : (commitXform s).cos = toHalf (sincos s.cfg (angleOf s)).2 := rfl
@[simp] theorem commitXform_p0x (s : State) : (commitXform s).p0x = s.p0x := rfl
@[simp] theorem commitXform_p0y (s : State) : (commitXform s).p0y = s.p0y := rfl
@[simp] theorem commitXform_p1x (s : State) : (commitXform s).p1x = s.p1x := rfl
@[simp] theorem commitXform_p1y (s : State) : (commitXform s).p1y = s.p1y := rfl
@[simp] theorem commitXform_fbbase0 (s : State) : (commitXform s).fbbase0 = s.fbbase0 := rfl
@[simp] theorem commitXform_fbbase1 (s : State) : (commitXform s).fbbase1 = s.fbbase1 := rfl
@[simp] theorem commitXform_tp (s : State) : (commitXform s).tp = transformed s.cfg (sincos s.cfg (angleOf s)).1 (sincos s.cfg (angleOf s)).2 := rfl
@[simp] theorem commitXform_mem (s : State) : (commitXform s).mem = s.mem := rfl
@[simp] theorem commitXform_drawn (s : State) : (commitXform s).drawn = s.drawn := rfl
@[simp] theorem commitXform_held (s : State) : (commitXform s).held = s.held := rfl
@[simp] theorem commitXform_cfg (s : State) : (commitXform s).cfg = s.cfg := rfl
@[simp] theorem commitXform_inputs (s : State) : (commitXform s).inputs = s.inputs := rfl
@[simp] theorem commitXform_hostLog (s : State) : (commitXform s).hostLog = s.hostLog := rfl
@[simp] theorem commitXform_freeCtr (s : State) : (commitXform s).freeCtr = s.freeCtr := rfl

@[simp] theorem hostRead_cmd (off : Nat) (s : State) : (hostRead off s).cmd = s.cmd := rfl
@[simp] theorem hostRead_busy (off : Nat) (s : State) : (hostRead off s).busy = s.busy := rfl
@[simp] theorem hostRead_fault (off : Nat) (s : State) : (hostRead off s).fault = s.fault := rfl
@[simp] theorem hostRead_tpvalid (off : Nat) (s : State) : (hostRead off s).tpvalid = s.tpvalid := rfl
@[simp] theorem hostRead_cause (off : Nat) (s : State) : (hostRead off s).cause = s.cause := rfl
@[simp] theorem hostRead_finfo (off : Nat) (s : State) : (hostRead off s).finfo = s.finfo := rfl
@[simp] theorem hostRead_angle (off : Nat) (s : State) : (hostRead off s).angle = s.angle := rfl
@[simp] theorem hostRead_sin (off : Nat) (s : State) : (hostRead off s).sin = s.sin := rfl
@[simp] theorem hostRead_cos (off : Nat) (s : State) : (hostRead off s).cos = s.cos := rfl
@[simp] theorem hostRead_p0x (off : Nat) (s : State) : (hostRead off s).p0x = s.p0x := rfl
@[simp] theorem hostRead_p0y (off : Nat) (s : State) : (hostRead off s).p0y = s.p0y := rfl
@[simp] theorem hostRead_p1x (off : Nat) (s : State) : (hostRead off s).p1x = s.p1x := rfl
@[simp] theorem hostRead_p1y (off : Nat) (s : State) : (hostRead off s).p1y = s.p1y := rfl
@[simp] theorem hostRead_fbbase0 (off : Nat) (s : State) : (hostRead off s).fbbase0 = s.fbbase0 := rfl
@[simp] theorem hostRead_fbbase1 (off : Nat) (s : State) : (hostRead off s).fbbase1 = s.fbbase1 := rfl
@[simp] theorem hostRead_tp (off : Nat) (s : State) : (hostRead off s).tp = s.tp := rfl
@[simp] theorem hostRead_mem (off : Nat) (s : State) : (hostRead off s).mem = s.mem := rfl
@[simp] theorem hostRead_drawn (off : Nat) (s : State) : (hostRead off s).drawn = s.drawn := rfl
@[simp] theorem hostRead_held (off : Nat) (s : State) : (hostRead off s).held = s.held := rfl
@[simp] theorem hostRead_cfg (off : Nat) (s : State) : (hostRead off s).cfg = s.cfg := rfl
@[simp] theorem hostRead_inputs (off : Nat) (s : State) : (hostRead off s).inputs = s.inputs := rfl
@[simp] theorem hostRead_hostLog (off : Nat) (s : State) : (hostRead off s).hostLog = .word (readReg s (regAt off)) :: s.hostLog := rfl
@[simp] theorem hostRead_freeCtr (off : Nat) (s : State) : (hostRead off s).freeCtr = if readIsFree s (regAt off) then s.freeCtr + 1 else s.freeCtr := rfl

@[simp] theorem popInput_cmd (rest : List Input) (s : State) : (popInput rest s).cmd = s.cmd := rfl
@[simp] theorem popInput_busy (rest : List Input) (s : State) : (popInput rest s).busy = s.busy := rfl
@[simp] theorem popInput_fault (rest : List Input) (s : State) : (popInput rest s).fault = s.fault := rfl
@[simp] theorem popInput_tpvalid (rest : List Input) (s : State) : (popInput rest s).tpvalid = s.tpvalid := rfl
@[simp] theorem popInput_cause (rest : List Input) (s : State) : (popInput rest s).cause = s.cause := rfl
@[simp] theorem popInput_finfo (rest : List Input) (s : State) : (popInput rest s).finfo = s.finfo := rfl
@[simp] theorem popInput_angle (rest : List Input) (s : State) : (popInput rest s).angle = s.angle := rfl
@[simp] theorem popInput_sin (rest : List Input) (s : State) : (popInput rest s).sin = s.sin := rfl
@[simp] theorem popInput_cos (rest : List Input) (s : State) : (popInput rest s).cos = s.cos := rfl
@[simp] theorem popInput_p0x (rest : List Input) (s : State) : (popInput rest s).p0x = s.p0x := rfl
@[simp] theorem popInput_p0y (rest : List Input) (s : State) : (popInput rest s).p0y = s.p0y := rfl
@[simp] theorem popInput_p1x (rest : List Input) (s : State) : (popInput rest s).p1x = s.p1x := rfl
@[simp] theorem popInput_p1y (rest : List Input) (s : State) : (popInput rest s).p1y = s.p1y := rfl
@[simp] theorem popInput_fbbase0 (rest : List Input) (s : State) : (popInput rest s).fbbase0 = s.fbbase0 := rfl
@[simp] theorem popInput_fbbase1 (rest : List Input) (s : State) : (popInput rest s).fbbase1 = s.fbbase1 := rfl
@[simp] theorem popInput_tp (rest : List Input) (s : State) : (popInput rest s).tp = s.tp := rfl
@[simp] theorem popInput_mem (rest : List Input) (s : State) : (popInput rest s).mem = s.mem := rfl
@[simp] theorem popInput_drawn (rest : List Input) (s : State) : (popInput rest s).drawn = s.drawn := rfl
@[simp] theorem popInput_held (rest : List Input) (s : State) : (popInput rest s).held = s.held := rfl
@[simp] theorem popInput_cfg (rest : List Input) (s : State) : (popInput rest s).cfg = s.cfg := rfl
@[simp] theorem popInput_inputs (rest : List Input) (s : State) : (popInput rest s).inputs = rest := rfl
@[simp] theorem popInput_hostLog (rest : List Input) (s : State) : (popInput rest s).hostLog = s.hostLog := rfl
@[simp] theorem popInput_freeCtr (rest : List Input) (s : State) : (popInput rest s).freeCtr = s.freeCtr := rfl

@[simp] theorem reset_cmd : State.reset.cmd = 0 := rfl
@[simp] theorem reset_busy : State.reset.busy = false := rfl
@[simp] theorem reset_fault : State.reset.fault = false := rfl
@[simp] theorem reset_tpvalid : State.reset.tpvalid = false := rfl
@[simp] theorem reset_cause : State.reset.cause = Cause.none := rfl
@[simp] theorem reset_finfo : State.reset.finfo = 0 := rfl
@[simp] theorem reset_angle : State.reset.angle = 0 := rfl
@[simp] theorem reset_sin : State.reset.sin = 0 := rfl
@[simp] theorem reset_cos : State.reset.cos = 0 := rfl
@[simp] theorem reset_p0x : State.reset.p0x = 0 := rfl
@[simp] theorem reset_p0y : State.reset.p0y = 0 := rfl
@[simp] theorem reset_p1x : State.reset.p1x = 0 := rfl
@[simp] theorem reset_p1y : State.reset.p1y = 0 := rfl
@[simp] theorem reset_fbbase0 : State.reset.fbbase0 = 0 := rfl
@[simp] theorem reset_fbbase1 : State.reset.fbbase1 = 0 := rfl
@[simp] theorem reset_tp : State.reset.tp = Vector.replicate 8 ⟨0, 0, 0⟩ := rfl
@[simp] theorem reset_mem : State.reset.mem = [] := rfl
@[simp] theorem reset_drawn : State.reset.drawn = 0 := rfl
@[simp] theorem reset_held : State.reset.held = none := rfl
@[simp] theorem reset_cfg : State.reset.cfg = configReference := rfl
@[simp] theorem reset_inputs : State.reset.inputs = [] := rfl
@[simp] theorem reset_hostLog : State.reset.hostLog = [] := rfl
@[simp] theorem reset_freeCtr : State.reset.freeCtr = 0 := rfl

end Sys2Proof.Machine
end

