-- ==== Sys2Proof/Laws/Memory.lean ====
section
/-! SUPPORT. What the memory operations do, and that they keep the canonical form. -/

namespace Sys2Proof.Machine

/-- The memory of the reset state has the canonical form. -/
theorem reset_mem_wf : State.reset.mem.wf = true := rfl

theorem Memory.read_nil (a : Nat) : Memory.read [] a = unlistedByte := rfl

theorem Memory.read_cons (k : Nat) (v : Byte) (m : Memory) (a : Nat) :
    Memory.read ((k, v) :: m) a = if k = a then v else Memory.read m a := rfl

/-- The canonical form, one listed byte at a time. -/
theorem Memory.wfAbove_cons {lo k : Nat} {v : Byte} {m : Memory} :
    Memory.wfAbove lo ((k, v) :: m) = true ↔
      lo ≤ k ∧ k < 2 ^ 32 ∧ v ≠ unlistedByte ∧ Memory.wfAbove (k + 1) m = true := by
  simp [Memory.wfAbove, and_assoc]

theorem Memory.wfAbove_mono {lo lo' : Nat} {m : Memory} (h : lo' ≤ lo) (hm : Memory.wfAbove lo m = true) :
    Memory.wfAbove lo' m = true := by
  cases m with
  | nil => rfl
  | cons c m =>
    obtain ⟨k, v⟩ := c
    rw [Memory.wfAbove_cons] at *
    exact ⟨by omega, hm.2⟩

/-- A byte below every listed address reads as unlisted. -/
theorem Memory.read_below {lo a : Nat} {m : Memory} (hm : Memory.wfAbove lo m = true) (ha : a < lo) :
    m.read a = unlistedByte := by
  induction m generalizing lo with
  | nil => rfl
  | cons c m ih =>
    obtain ⟨k, v⟩ := c
    rw [Memory.wfAbove_cons] at hm
    rw [Memory.read_cons, if_neg (by omega)]
    exact ih hm.2.2.2 (by omega)

/-- A write is seen at its own address and nowhere else, in canonical memory above `lo`. -/
theorem Memory.read_writeAbove {lo : Nat} {m : Memory} (hm : Memory.wfAbove lo m = true) (a b : Nat) (v : Byte) :
    (m.write a v).read b = if a = b then v else m.read b := by
  induction m generalizing lo with
  | nil =>
    by_cases hv : v = unlistedByte <;> by_cases hab : a = b <;> simp [Memory.write, Memory.read, hv, hab]
  | cons c m ih =>
    obtain ⟨k, w⟩ := c
    have hm' := Memory.wfAbove_cons.1 hm
    have hbelow : ∀ c, c ≤ k → Memory.read m c = unlistedByte :=
      fun c hc => Memory.read_below hm'.2.2.2 (by omega)
    unfold Memory.write
    by_cases h1 : a < k
    · rw [if_pos h1]
      by_cases hv : v = unlistedByte
      · rw [if_pos hv, Memory.read_cons]
        by_cases hab : a = b
        · subst hab
          rw [if_neg (by omega), if_pos rfl, hbelow a (by omega), hv]
        · rw [if_neg hab]
      · rw [if_neg hv, Memory.read_cons]
    · rw [if_neg h1]
      by_cases h2 : a = k
      · subst h2
        rw [if_pos rfl]
        by_cases hv : v = unlistedByte
        · rw [if_pos hv, Memory.read_cons]
          by_cases hab : a = b
          · subst hab
            rw [if_pos rfl, hbelow a (by omega), hv]
          · rw [if_neg hab, if_neg hab]
        · rw [if_neg hv, Memory.read_cons, Memory.read_cons]
          by_cases hab : a = b <;> simp [hab]
      · rw [if_neg h2, Memory.read_cons, Memory.read_cons, ih hm'.2.2.2]
        by_cases hkb : k = b
        · rw [if_pos hkb, if_pos hkb, if_neg (by omega)]
        · rw [if_neg hkb, if_neg hkb]

/-- A write of a 32-bit address keeps the canonical form above `lo`. -/
theorem Memory.wfAbove_write {lo : Nat} {m : Memory} (hm : Memory.wfAbove lo m = true) {a : Nat} (hlo : lo ≤ a)
    (ha : a < 2 ^ 32) (v : Byte) : Memory.wfAbove lo (m.write a v) = true := by
  induction m generalizing lo with
  | nil =>
    by_cases hv : v = unlistedByte
    · simp [Memory.write, hv, Memory.wfAbove]
    · simp only [Memory.write, if_neg hv]
      exact Memory.wfAbove_cons.2 ⟨hlo, ha, hv, rfl⟩
  | cons c m ih =>
    obtain ⟨k, w⟩ := c
    have hm' := Memory.wfAbove_cons.1 hm
    unfold Memory.write
    by_cases h1 : a < k
    · rw [if_pos h1]
      by_cases hv : v = unlistedByte
      · rwa [if_pos hv]
      · rw [if_neg hv]
        exact Memory.wfAbove_cons.2 ⟨hlo, ha, hv,
          Memory.wfAbove_cons.2 ⟨by omega, hm'.2⟩⟩
    · rw [if_neg h1]
      by_cases h2 : a = k
      · rw [if_pos h2]
        by_cases hv : v = unlistedByte
        · rw [if_pos hv]
          exact Memory.wfAbove_mono (by omega) hm'.2.2.2
        · rw [if_neg hv]
          exact Memory.wfAbove_cons.2 ⟨hm'.1, hm'.2.1, hv, hm'.2.2.2⟩
      · rw [if_neg h2]
        exact Memory.wfAbove_cons.2 ⟨hm'.1, hm'.2.1, hm'.2.2.1, ih hm'.2.2.2 (by omega)⟩

/-- Two canonical memories that read alike everywhere are the same list. -/
theorem Memory.ext_wfAbove {lo lo' : Nat} {m m' : Memory} (hm : Memory.wfAbove lo m = true)
    (hm' : Memory.wfAbove lo' m' = true) (h : ∀ a, m.read a = m'.read a) : m = m' := by
  induction m generalizing lo lo' m' with
  | nil =>
    cases m' with
    | nil => rfl
    | cons c m' =>
      obtain ⟨k, v⟩ := c
      have hv := (Memory.wfAbove_cons.1 hm').2.2.1
      have hk := h k
      rw [Memory.read_nil, Memory.read_cons, if_pos rfl] at hk
      exact absurd hk.symm hv
  | cons c m ih =>
    obtain ⟨k, v⟩ := c
    have hm1 := Memory.wfAbove_cons.1 hm
    cases m' with
    | nil =>
      have hk := h k
      rw [Memory.read_nil, Memory.read_cons, if_pos rfl] at hk
      exact absurd hk hm1.2.2.1
    | cons c' m' =>
      obtain ⟨k', v'⟩ := c'
      have hm1' := Memory.wfAbove_cons.1 hm'
      have hkk : k = k' := by
        rcases Nat.lt_trichotomy k k' with hlt | heq | hgt
        · have hk := h k
          rw [Memory.read_cons, if_pos rfl, Memory.read_cons, if_neg (by omega),
            Memory.read_below hm1'.2.2.2 (by omega)] at hk
          exact absurd hk hm1.2.2.1
        · exact heq
        · have hk := h k'
          rw [Memory.read_cons, if_neg (by omega), Memory.read_below hm1.2.2.2 (by omega),
            Memory.read_cons, if_pos rfl] at hk
          exact absurd hk.symm hm1'.2.2.1
      subst hkk
      have hvv : v = v' := by
        have hk := h k
        rwa [Memory.read_cons, if_pos rfl, Memory.read_cons, if_pos rfl] at hk
      subst hvv
      have hmm : m = m' := by
        refine ih hm1.2.2.2 hm1'.2.2.2 fun a => ?_
        by_cases hka : k = a
        · subst hka
          rw [Memory.read_below hm1.2.2.2 (by omega), Memory.read_below hm1'.2.2.2 (by omega)]
        · have hk := h a
          rwa [Memory.read_cons, if_neg hka, Memory.read_cons, if_neg hka] at hk
      rw [hmm]

theorem Memory.read_write {m : Memory} (hm : m.wf = true) (a b : Nat) (v : Byte) :
    (m.write a v).read b = if a = b then v else m.read b := Memory.read_writeAbove hm a b v

theorem Memory.wf_write {m : Memory} (hm : m.wf = true) {a : Nat} (ha : a < 2 ^ 32) (v : Byte) :
    (m.write a v).wf = true := Memory.wfAbove_write hm (Nat.zero_le a) ha v

theorem Memory.ext_wf {m m' : Memory} (hm : m.wf = true) (hm' : m'.wf = true)
    (h : ∀ a, m.read a = m'.read a) : m = m' := Memory.ext_wfAbove hm hm' h

/-- A write leaves every other byte alone, in any list. -/
theorem Memory.read_write_other (m : Memory) {a b : Nat} (hab : a ≠ b) (v : Byte) :
    (m.write a v).read b = m.read b := by
  induction m with
  | nil => by_cases hv : v = unlistedByte <;> simp [Memory.write, Memory.read, hv, hab]
  | cons c m ih =>
    obtain ⟨k, w⟩ := c
    unfold Memory.write
    split
    · split
      · rfl
      · rw [Memory.read_cons, if_neg hab]
    · split
      · next h =>
        subst h
        split
        · rw [Memory.read_cons, if_neg hab]
        · rw [Memory.read_cons, Memory.read_cons, if_neg hab, if_neg hab]
      · rw [Memory.read_cons, Memory.read_cons, ih]

theorem pixelAddr_lt (base : Word) (p : Pixel) : pixelAddr base p < 2 ^ 32 := Nat.mod_lt _ (by decide)

/-- SetPixel ORs one mask into one byte and leaves every other byte alone. -/
theorem setPixel_read {m : Memory} (hm : m.wf = true) (base : Word) (p : Pixel) (a : Nat) :
    (setPixel base m p).read a = if pixelAddr base p = a then m.read a ||| pixelMask p else m.read a := by
  rw [setPixel, Memory.read_write hm]
  split
  · next h => rw [h]
  · rfl

theorem setPixel_wf {m : Memory} (hm : m.wf = true) (base : Word) (p : Pixel) : (setPixel base m p).wf = true :=
  Memory.wf_write hm (pixelAddr_lt base p) _

theorem setPixels_nil (base : Word) (m : Memory) : setPixels base m [] = m := rfl

theorem setPixels_cons (base : Word) (m : Memory) (p : Pixel) (ps : List Pixel) :
    setPixels base m (p :: ps) = setPixels base (setPixel base m p) ps := rfl

theorem setPixels_append (base : Word) (m : Memory) (ps qs : List Pixel) :
    setPixels base m (ps ++ qs) = setPixels base (setPixels base m ps) qs := by
  simp [setPixels, List.foldl_append]

theorem setPixels_wf {m : Memory} (hm : m.wf = true) (base : Word) (ps : List Pixel) :
    (setPixels base m ps).wf = true := by
  induction ps generalizing m with
  | nil => exact hm
  | cons p ps ih => exact ih (setPixel_wf hm base p)

/-- A bit is set after a sequence of SetPixel calls exactly if it was set before or one of the calls sets it. -/
theorem setPixels_getLsbD {m : Memory} (hm : m.wf = true) (base : Word) (ps : List Pixel) (a j : Nat) :
    ((setPixels base m ps).read a).getLsbD j = true ↔
      (m.read a).getLsbD j = true ∨ ∃ p ∈ ps, pixelAddr base p = a ∧ (pixelMask p).getLsbD j = true := by
  induction ps generalizing m with
  | nil => simp [setPixels_nil]
  | cons p ps ih =>
    rw [setPixels_cons, ih (setPixel_wf hm base p), setPixel_read hm]
    by_cases h : pixelAddr base p = a
    · simp [h, BitVec.getLsbD_or, or_assoc]
    · simp [h]

/-- SetPixel leaves every byte but its own alone, in any list. -/
theorem setPixel_read_other (base : Word) (m : Memory) (p : Pixel) {a : Nat} (h : pixelAddr base p ≠ a) :
    (setPixel base m p).read a = m.read a := Memory.read_write_other m h _

/-- A byte that no call of the sequence is at keeps its value, in any list. -/
theorem setPixels_read_other (base : Word) (m : Memory) (ps : List Pixel) (a : Nat)
    (h : ∀ p ∈ ps, pixelAddr base p ≠ a) : (setPixels base m ps).read a = m.read a := by
  induction ps generalizing m with
  | nil => rfl
  | cons p ps ih =>
    rw [setPixels_cons, ih _ (fun q hq => h q (List.mem_cons_of_mem p hq)),
      setPixel_read_other base m p (h p List.mem_cons_self)]

end Sys2Proof.Machine
end

