-- ==== Sys2Proof/Laws/Ops.lean ====
section
/-! SUPPORT. What each shared operation can do, said once: its cases, for later proofs to cite instead of unfolding. -/

namespace Sys2Proof.Machine

theorem onScreen_iff {p : Pixel} :
    onScreen p = true ↔ OnScreen p := by
  simp [onScreen, OnScreen, and_assoc]

theorem fitsS16_iff {v : Int} : fitsS16 v = true ↔ -32768 ≤ v ∧ v ≤ 32767 := by simp [fitsS16]

theorem fitsS32_iff {v : Int} : fitsS32 v = true ↔ -2147483648 ≤ v ∧ v ≤ 2147483647 := by simp [fitsS32]

/-- An s16 register holds every integer that fits it. -/
theorem toInt_toHalf {v : Int} (h : -32768 ≤ v ∧ v ≤ 32767) : (toHalf v).toInt = v := by
  rw [toHalf, BitVec.toInt_ofInt, Int.bmod_def]
  split <;> omega

theorem segmentPlan_ok_iff {p q : Pixel} {ps : List Pixel} :
    segmentPlan p q = .ok ps ↔ onScreen p = true ∧ onScreen q = true ∧ ps = linePixels p q := by
  unfold segmentPlan
  cases onScreen p <;> cases onScreen q <;> simp [eq_comm]

theorem segmentPlan_error_iff {p q : Pixel} {f : FaultRecord} :
    segmentPlan p q = .error f ↔
      (onScreen p = false ∧ f = coordFault p) ∨ (onScreen p = true ∧ onScreen q = false ∧ f = coordFault q) := by
  unfold segmentPlan
  cases onScreen p <;> cases onScreen q <;> simp [eq_comm]

theorem setpixPlan_ok_iff {s : State} {ps : List Pixel} :
    setpixPlan s = .ok ps ↔ onScreen (point0 s) = true ∧ ps = [point0 s] := by
  unfold setpixPlan
  cases onScreen (point0 s) <;> simp [eq_comm]

theorem setpixPlan_error_iff {s : State} {f : FaultRecord} :
    setpixPlan s = .error f ↔ onScreen (point0 s) = false ∧ f = coordFault (point0 s) := by
  unfold setpixPlan
  cases onScreen (point0 s) <;> simp [eq_comm]

theorem edgePlan_ok_iff {e : Nat} {s : State} {ps : List Pixel} :
    edgePlan e s = .ok ps ↔ s.tpvalid = true ∧
      ∃ h : e < 12, segmentPlan (tpPoint s edgeTable[e].1) (tpPoint s edgeTable[e].2) = .ok ps := by
  unfold edgePlan
  by_cases h : e < 12
  · rw [dif_pos h]
    cases s.tpvalid <;> simp [h]
  · simp [h]

theorem edgePlan_error_iff {e : Nat} {s : State} {f : FaultRecord} :
    edgePlan e s = .error f ↔
      (12 ≤ e ∧ f = ⟨.edgeIndex, BitVec.ofNat 32 e⟩) ∨
      (e < 12 ∧ s.tpvalid = false ∧ f = ⟨.tpInvalid, 0⟩) ∨
      (s.tpvalid = true ∧ ∃ h : e < 12,
        segmentPlan (tpPoint s edgeTable[e].1) (tpPoint s edgeTable[e].2) = .error f) := by
  unfold edgePlan
  by_cases h : e < 12
  · rw [dif_pos h]
    have h' : ¬12 ≤ e := by omega
    cases s.tpvalid <;> simp [h, h', eq_comm (b := f)]
  · have h' : 12 ≤ e := by omega
    simp [h, h', eq_comm (b := f)]

/-- With no read made ahead, the calls are those of `setPixels`. -/
theorem finishPixels_none (base : Word) (m : Memory) (ps : List Pixel) :
    finishPixels base m none ps = setPixels base m ps := by
  cases ps <;> rfl

theorem finishPixels_nil (base : Word) (m : Memory) (held : Option Byte) : finishPixels base m held [] = m := rfl

theorem finishPixels_wf {m : Memory} (hm : m.wf = true) (base : Word) (held : Option Byte) (ps : List Pixel) :
    (finishPixels base m held ps).wf = true := by
  cases ps with
  | nil => exact hm
  | cons p ps => exact setPixels_wf (Memory.wf_write hm (pixelAddr_lt base p) _) base ps

/-- A byte that no call is at keeps its value, whatever was read ahead. -/
theorem finishPixels_read_other (base : Word) (m : Memory) (held : Option Byte) (ps : List Pixel) (a : Nat)
    (h : ∀ p ∈ ps, pixelAddr base p ≠ a) : (finishPixels base m held ps).read a = m.read a := by
  cases ps with
  | nil => rfl
  | cons p ps =>
    rw [finishPixels, setPixels_read_other base _ ps a fun q hq => h q (List.mem_cons_of_mem p hq)]
    exact Memory.read_write_other m (h p List.mem_cons_self) _

/-- A drawing command either faults, and then is its fault entry, or performs what remains of its pixels. -/
theorem finishDraw_cases (b : Buf) (plan : Except FaultRecord (List Pixel)) (s : State) :
    (∃ f, plan = .error f ∧ finishDraw b plan s = raiseFault f s) ∨
    (∃ ps, plan = .ok ps ∧ finishDraw b plan s =
      complete { s with mem := finishPixels (fbBase b s) s.mem s.held (ps.drop s.drawn), drawn := 0, held := none }) := by
  cases plan with
  | error f => exact .inl ⟨f, rfl, rfl⟩
  | ok ps => exact .inr ⟨ps, rfl, rfl⟩

/-- The commands that draw are their plan, carried out. -/
theorem exec_of_drawPlan {i : Instr} {s : State} {b : Buf} {plan : Except FaultRecord (List Pixel)}
    (h : drawPlan i s = some (b, plan)) : exec i s = .next (finishDraw b plan s) := by
  cases i <;> simp only [drawPlan, Option.some.injEq, Prod.mk.injEq, reduceCtorEq] at h
  all_goals obtain ⟨rfl, rfl⟩ := h; rfl

theorem angleFault_cases (s : State) :
    (360 ≤ s.angle.toNat ∧ angleFault s = some ⟨.angleRange, s.angle⟩) ∨
    (s.angle.toNat < 360 ∧ angleFault s = none) := by
  unfold angleFault angleOf
  split
  · exact .inl ⟨‹_›, rfl⟩
  · exact .inr ⟨by omega, rfl⟩

theorem execSincos_cases (s : State) :
    (∃ f, angleFault s = some f ∧ execSincos s = .next (raiseFault f s)) ∨
    (angleFault s = none ∧ execSincos s = .next (complete (writeSincos (sincos s.cfg (angleOf s)) s))) := by
  unfold execSincos
  cases angleFault s with
  | some f => exact .inl ⟨f, rfl, rfl⟩
  | none => exact .inr ⟨rfl, rfl⟩

theorem execXform_cases (s : State) :
    (∃ f, xformFault s = some f ∧ execXform s = .next (raiseFault f s)) ∨
    (xformFault s = none ∧ execXform s = .next (complete (commitXform s))) := by
  unfold execXform
  cases xformFault s with
  | some f => exact .inl ⟨f, rfl, rfl⟩
  | none => exact .inr ⟨rfl, rfl⟩

theorem xformFault_none_iff {s : State} :
    xformFault s = none ↔ s.angle.toNat < 360 ∧
      overflowFault s.cfg (sincos s.cfg (angleOf s)).1 (sincos s.cfg (angleOf s)).2 = none := by
  unfold xformFault
  rcases angleFault_cases s with ⟨h, hf⟩ | ⟨h, hf⟩ <;> rw [hf] <;> simp [h]

/-- No check fails exactly when no vertex has a failed stage. -/
theorem overflowFault_none_iff {c : Config} {sn cs : Int} :
    overflowFault c sn cs = none ↔ ∀ i : Fin 8, failedStage (vertexWork c sn cs (model c i)) = none := by
  simp [overflowFault]

/-- The arithmetic of a vertex satisfies its equations. -/
theorem vertexWork_rule (c : Config) (sn cs : Int) (v : IntVec3) : VertexRule c sn cs v (vertexWork c sn cs v) := by
  constructor <;> simp [vertexWork, rot2, asr, Config.unit]

/-- Only the model's arithmetic satisfies the equations of a vertex. -/
theorem vertexRule_unique {c : Config} {sn cs : Int} {v : IntVec3} {w : VertexWork} (h : VertexRule c sn cs v w) :
    w = vertexWork c sn cs v := by
  obtain ⟨h1, h2, h3, h4, h5, h6, h7, h8, h9, h10, h11⟩ := h
  cases w
  simp only at *
  simp only [vertexWork, rot2, asr, Config.unit, VertexWork.mk.injEq]
  norm_num
  subst_vars
  simp

/-- MODEL written out is the table of the model. -/
theorem modelVertex_eq (c : Config) (i : Fin 8) : modelVertex c.cubeSize i.val = model c i := by
  fin_cases i <;> rfl

/-- No stage fails exactly when each of the five passes. -/
theorem failedStage_none_iff {w : VertexWork} :
    failedStage w = none ↔ ∀ k, 1 ≤ k → k ≤ 5 → stagePasses w k := by
  constructor
  · intro h k h1 h2
    unfold failedStage at h
    split_ifs at h with a b c d e
    simp [fitsS16, fitsS32] at a b c d e
    interval_cases k <;> simp [stagePasses] <;> omega
  · intro h
    have h1 := h 1 (by decide) (by decide)
    have h2 := h 2 (by decide) (by decide)
    have h3 := h 3 (by decide) (by decide)
    have h4 := h 4 (by decide) (by decide)
    have h5 := h 5 (by decide) (by decide)
    simp only [stagePasses] at h1 h2 h3 h4 h5
    simp [failedStage, fitsS16, fitsS32, h1, h2, h3, h4, h5]

/-- The stage that fails first: the stages before it pass and it does not. -/
theorem failedStage_some {w : VertexWork} {stage : Nat} (h : failedStage w = some stage) :
    1 ≤ stage ∧ stage ≤ 5 ∧ (∀ k, 1 ≤ k → k < stage → stagePasses w k) ∧ ¬stagePasses w stage := by
  unfold failedStage at h
  split_ifs at h <;> cases h <;> simp [fitsS16, fitsS32] at * <;>
    refine ⟨fun k h1 h2 => ?_, ?_⟩ <;>
    first
      | (interval_cases k <;> simp only [stagePasses] <;> omega)
      | (simp only [stagePasses]; omega)

/-- An overflow is that of the lowest vertex with a failed stage. -/
theorem overflowFault_some {c : Config} {sn cs : Int} {f : FaultRecord} (h : overflowFault c sn cs = some f) :
    ∃ (i : Fin 8) (stage : Nat), failedStage (vertexWork c sn cs (model c i)) = some stage ∧
      (∀ j < i, failedStage (vertexWork c sn cs (model c j)) = none) ∧
      f = ⟨.arithOverflow, BitVec.ofNat 32 (i.val + 16 * stage)⟩ := by
  obtain ⟨l₁, i, l₂, hl, hi, hb⟩ := List.findSome?_eq_some_iff.1 h
  obtain ⟨stage, hst, rfl⟩ := Option.map_eq_some_iff.1 hi
  refine ⟨i, stage, hst, fun j hj => Option.map_eq_none_iff.1 (hb j ?_), rfl⟩
  have hmem : j ∈ l₁ ++ i :: l₂ := hl ▸ List.mem_finRange j
  have hs : (l₁ ++ i :: l₂).Pairwise (· < ·) := hl ▸ List.pairwise_lt_finRange 8
  rcases List.mem_append.1 hmem with h' | h'
  · exact h'
  · have hle : i ≤ j := by
      rcases List.mem_cons.1 h' with rfl | h'
      · exact le_refl _
      · exact le_of_lt ((List.pairwise_cons.1 (List.pairwise_append.1 hs).2.1).1 j h')
    exact absurd hj (not_lt.2 hle)

/-- What a command that answers a next state can be: RESET, a completion of each kind, or a fault entry. -/
theorem exec_cases {i : Instr} {s t : State} (h : exec i s = .next t) :
    (i = .reset ∧ t = resetBlock s) ∨
    (i = .nop ∧ t = complete s) ∨
    (i = .sincos ∧ angleFault s = none ∧ t = complete (writeSincos (sincos s.cfg (angleOf s)) s)) ∨
    (i = .xform ∧ xformFault s = none ∧ t = complete (commitXform s)) ∨
    (∃ b ps, drawPlan i s = some (b, .ok ps) ∧
      t = complete { s with mem := finishPixels (fbBase b s) s.mem s.held (ps.drop s.drawn), drawn := 0, held := none }) ∨
    (∃ f, t = raiseFault f s ∧
      ((i = .sincos ∧ angleFault s = some f) ∨ (i = .xform ∧ xformFault s = some f) ∨
       ∃ b, drawPlan i s = some (b, .error f))) := by
  have hdraw : ∀ b plan, drawPlan i s = some (b, plan) →
      (∃ b ps, drawPlan i s = some (b, .ok ps) ∧
        t = complete { s with mem := finishPixels (fbBase b s) s.mem s.held (ps.drop s.drawn), drawn := 0, held := none }) ∨
      (∃ f, t = raiseFault f s ∧ ∃ b, drawPlan i s = some (b, .error f)) := by
    intro b plan hp
    rw [exec_of_drawPlan hp] at h
    have ht := (Host.Outcome.next.inj h).symm
    rcases finishDraw_cases b plan s with ⟨f, rfl, hf⟩ | ⟨ps, rfl, hf⟩
    · exact .inr ⟨f, by rw [ht, hf], b, hp⟩
    · exact .inl ⟨b, ps, hp, by rw [ht, hf]⟩
  cases i with
  | nop => exact .inr (.inl ⟨rfl, (Host.Outcome.next.inj h).symm⟩)
  | reset => exact .inl ⟨rfl, (Host.Outcome.next.inj h).symm⟩
  | sincos =>
    rcases execSincos_cases s with ⟨f, hf, he⟩ | ⟨hf, he⟩
    · exact .inr (.inr (.inr (.inr (.inr ⟨f, Host.Outcome.next.inj (h.symm.trans he), .inl ⟨rfl, hf⟩⟩))))
    · exact .inr (.inr (.inl ⟨rfl, hf, Host.Outcome.next.inj (h.symm.trans he)⟩))
  | xform =>
    rcases execXform_cases s with ⟨f, hf, he⟩ | ⟨hf, he⟩
    · exact .inr (.inr (.inr (.inr (.inr ⟨f, Host.Outcome.next.inj (h.symm.trans he), .inr (.inl ⟨rfl, hf⟩)⟩))))
    · exact .inr (.inr (.inr (.inl ⟨rfl, hf, Host.Outcome.next.inj (h.symm.trans he)⟩)))
  | setpix b =>
    rcases hdraw _ _ rfl with h' | ⟨f, hf, hb⟩
    · exact .inr (.inr (.inr (.inr (.inl h'))))
    · exact .inr (.inr (.inr (.inr (.inr ⟨f, hf, .inr (.inr hb)⟩))))
  | line b =>
    rcases hdraw _ _ rfl with h' | ⟨f, hf, hb⟩
    · exact .inr (.inr (.inr (.inr (.inl h'))))
    · exact .inr (.inr (.inr (.inr (.inr ⟨f, hf, .inr (.inr hb)⟩))))
  | edge b e =>
    rcases hdraw _ _ rfl with h' | ⟨f, hf, hb⟩
    · exact .inr (.inr (.inr (.inr (.inl h'))))
    · exact .inr (.inr (.inr (.inr (.inr ⟨f, hf, .inr (.inr hb)⟩))))

/-- XFORM faults with ANGLE_RANGE, or with ARITH_OVERFLOW at a vertex and a stage. -/
theorem xformFault_some {s : State} {f : FaultRecord} (h : xformFault s = some f) :
    (360 ≤ s.angle.toNat ∧ f = ⟨.angleRange, s.angle⟩) ∨
    (∃ i stage, i < 8 ∧ 1 ≤ stage ∧ stage ≤ 5 ∧ f = ⟨.arithOverflow, BitVec.ofNat 32 (i + 16 * stage)⟩) := by
  unfold xformFault at h
  rcases angleFault_cases s with ⟨ha, hf⟩ | ⟨_, hf⟩ <;> rw [hf] at h
  · exact .inl ⟨ha, (Option.some.inj h).symm⟩
  · simp only [overflowFault] at h
    obtain ⟨i, _, hi⟩ := List.exists_of_findSome?_eq_some h
    obtain ⟨stage, hst, rfl⟩ := Option.map_eq_some_iff.1 hi
    refine .inr ⟨i.val, stage, i.isLt, ?_, ?_, rfl⟩ <;>
      (unfold failedStage at hst; split_ifs at hst <;> simp at hst <;> omega)

/-- An idle block has nothing in flight. -/
theorem flight_idle {s : State} (h : s.busy = false) : flight s = none := by unfold flight; rw [h]; rfl

theorem advanceFlight_idle {s : State} (h : s.busy = false) : advanceFlight s = s := by
  unfold advanceFlight; rw [flight_idle h]

/-- What the block's turn can do: idle, run the latched command, or fault on an illegal word. -/
theorem blockTurn_cases {s t : State} (h : blockTurn s = .next t) :
    (s.busy = false ∧ t = s) ∨
    (s.busy = true ∧ ∃ i, decode s.cmd = .ok i ∧ exec i s = .next t) ∨
    (s.busy = true ∧ ∃ e, decode s.cmd = .error e ∧ t = raiseFault ⟨.illegalCmd, s.cmd⟩ s) := by
  unfold blockTurn runLatched at h
  cases hb : s.busy with
  | false =>
    simp only [hb, Bool.false_eq_true, if_false, Host.Outcome.next.injEq] at h
    exact .inl ⟨rfl, h.symm⟩
  | true =>
    rw [hb, if_pos rfl] at h
    cases hd : decode s.cmd with
    | ok i =>
      rw [hd] at h
      exact .inr (.inl ⟨rfl, i, rfl, h⟩)
    | error e =>
      rw [hd] at h
      exact .inr (.inr ⟨rfl, e, rfl, (Host.Outcome.next.inj h).symm⟩)

/-- What a step that answers a next state can be, by the input it takes. -/
theorem step_cases {s t : State} (h : step s = .next t) :
    (s.inputs = [] ∧ blockTurn s = .next t) ∨
    (∃ rest, s.inputs = .blockTurn :: rest ∧ blockTurn (popInput rest s) = .next t) ∨
    (∃ rest off size, s.inputs = .read off size :: rest ∧ accessDefined off size = true ∧
      t = hostRead off (popInput rest s)) ∨
    (∃ rest off size data, s.inputs = .write off size data :: rest ∧ accessDefined off size = true ∧
      t = hostWrite off data (popInput rest s)) ∨
    (∃ rest, s.inputs = .wait :: rest ∧ s.busy = true ∧ blockTurn s = .next t) ∨
    (∃ rest, s.inputs = .wait :: rest ∧ s.busy = false ∧ t = pollDone (popInput rest s)) ∨
    (∃ rest a, s.inputs = .memRead a :: rest ∧ t = foreignRead a (popInput rest s)) ∨
    (∃ rest a v, s.inputs = .memWrite a v :: rest ∧ t = foreignWrite a v (popInput rest s)) ∨
    (∃ rest, s.inputs = .hardwareReset :: rest ∧ t = hardwareReset (popInput rest s)) := by
  unfold step turn at h
  cases hi : s.inputs with
  | nil => rw [hi] at h; exact .inl ⟨rfl, h⟩
  | cons i rest =>
    rw [hi] at h
    cases i with
    | blockTurn => exact .inr (.inl ⟨rest, rfl, h⟩)
    | read off size =>
      simp only [arrive] at h
      split at h
      · exact .inr (.inr (.inl ⟨rest, off, size, rfl, ‹_›, (Host.Outcome.next.inj h).symm⟩))
      · cases h
    | write off size data =>
      simp only [arrive] at h
      split at h
      · exact .inr (.inr (.inr (.inl ⟨rest, off, size, data, rfl, ‹_›, (Host.Outcome.next.inj h).symm⟩)))
      · cases h
    | wait =>
      simp only [arrive] at h
      split at h
      · exact .inr (.inr (.inr (.inr (.inl ⟨rest, rfl, ‹_›, h⟩))))
      · next hb =>
        exact .inr (.inr (.inr (.inr (.inr (.inl ⟨rest, rfl, by simpa using hb, (Host.Outcome.next.inj h).symm⟩)))))
    | memRead a =>
      exact .inr (.inr (.inr (.inr (.inr (.inr (.inl ⟨rest, a, rfl, (Host.Outcome.next.inj h).symm⟩))))))
    | memWrite a v =>
      exact .inr (.inr (.inr (.inr (.inr (.inr (.inr (.inl ⟨rest, a, v, rfl, (Host.Outcome.next.inj h).symm⟩)))))))
    | hardwareReset =>
      exact .inr (.inr (.inr (.inr (.inr (.inr (.inr (.inr ⟨rest, rfl, (Host.Outcome.next.inj h).symm⟩)))))))

/-- A host write is discarded, or accepted by what its offset names. -/
theorem hostWrite_cases (off : Nat) (data : Word) (s : State) :
    (writeDiscarded off data s = true ∧ hostWrite off data s = s) ∨
    (writeDiscarded off data s = false ∧ hostWrite off data s = acceptWrite (regAt off) data s) := by
  unfold hostWrite
  cases writeDiscarded off data s with
  | true => exact .inl ⟨rfl, rfl⟩
  | false => exact .inr ⟨rfl, rfl⟩

/-- What a host write that is not discarded can do. -/
theorem acceptWrite_cases (r : RegName) (data : Word) (s : State) :
    (r = .cmd ∧ data = 0x000000FF#32 ∧ acceptWrite r data s = resetBlock s) ∨
    (r = .cmd ∧ data ≠ 0x000000FF#32 ∧ acceptWrite r data s = { s with cmd := data, busy := true }) ∨
    (r = .angle ∧ acceptWrite r data s = { s with angle := data }) ∨
    (r = .p0x ∧ acceptWrite r data s = { s with p0x := data }) ∨
    (r = .p0y ∧ acceptWrite r data s = { s with p0y := data }) ∨
    (r = .p1x ∧ acceptWrite r data s = { s with p1x := data }) ∨
    (r = .p1y ∧ acceptWrite r data s = { s with p1y := data }) ∨
    (r = .fbbase0 ∧ acceptWrite r data s = { s with fbbase0 := data }) ∨
    (r = .fbbase1 ∧ acceptWrite r data s = { s with fbbase1 := data }) ∨
    acceptWrite r data s = s := by
  cases r
  case cmd =>
    by_cases h : data = 0x000000FF#32
    · exact .inl ⟨rfl, h, if_pos h⟩
    · exact .inr (.inl ⟨rfl, h, if_neg h⟩)
  all_goals simp [acceptWrite]

/-- Each writable register has the one offset of the map (10_state.md R22). -/
theorem regAt_eq_writable {off : Nat} (h4 : off % 4 = 0) :
    (regAt off = .cmd ↔ off = 0x00) ∧ (regAt off = .angle ↔ off = 0x0C) ∧
    (regAt off = .p0x ↔ off = 0x18) ∧ (regAt off = .p0y ↔ off = 0x1C) ∧
    (regAt off = .p1x ↔ off = 0x20) ∧ (regAt off = .p1y ↔ off = 0x24) ∧
    (regAt off = .fbbase0 ↔ off = 0x28) ∧ (regAt off = .fbbase1 ↔ off = 0x2C) := by
  have hoff : ∀ r n, r ≠ .reserved → n < 64 → (∀ k < 64, (regMap.getD k .reserved = r ↔ k = n)) →
      (regAt off = r ↔ off = 4 * n) := by
    intro r n hr hn hk
    by_cases h : off / 4 < 64
    · rw [regAt, hk (off / 4) h]
      omega
    · have h1 : regAt off = .reserved := by
        rw [regAt, List.getD_eq_default]
        have hl : regMap.length = 64 := by decide
        omega
      rw [h1]
      constructor
      · intro h'; exact absurd h'.symm hr
      · intro h'; omega
  exact ⟨hoff _ 0 (by decide) (by decide) (by decide), hoff _ 3 (by decide) (by decide) (by decide),
    hoff _ 6 (by decide) (by decide) (by decide), hoff _ 7 (by decide) (by decide) (by decide),
    hoff _ 8 (by decide) (by decide) (by decide), hoff _ 9 (by decide) (by decide) (by decide),
    hoff _ 10 (by decide) (by decide) (by decide), hoff _ 11 (by decide) (by decide) (by decide)⟩

theorem accessDefined_iff {off : Nat} {size : AccessSize} :
    accessDefined off size = true ↔ size = .word ∧ off % 4 = 0 ∧ off < 0x100 := by
  cases size <;> simp [accessDefined]

theorem writeDiscarded_iff {off : Nat} {data : Word} {s : State} :
    writeDiscarded off data s = true ↔
      s.busy = true ∨ (s.fault = true ∧ ¬(off = 0 ∧ data = 0x000000FF#32)) := by
  unfold writeDiscarded
  by_cases h1 : off = 0 <;> by_cases h2 : data = 0x000000FF#32 <;> simp [h1, h2]

/-- A command is in flight for memory exactly when BUSY = 1 and the latched word is a drawing command that does not
fault. -/
theorem flight_some_iff {s : State} {base : Word} {ps : List Pixel} :
    flight s = some (base, ps) ↔ s.busy = true ∧
      ∃ i b, decode s.cmd = .ok i ∧ drawPlan i s = some (b, .ok ps) ∧ base = fbBase b s := by
  unfold flight
  cases hb : s.busy with
  | false => simp
  | true =>
    cases hd : decode s.cmd with
    | error e => simp
    | ok i =>
      cases hp : drawPlan i s with
      | none => simp [hp]
      | some bp =>
        obtain ⟨b, plan⟩ := bp
        cases plan with
        | error f => simp [hp]
        | ok qs => simp [hp, eq_comm, and_comm]

/-- Before another agent's access some further accesses of the command in flight are made, and nothing else. -/
theorem advanceFlight_cases (s : State) :
    (flight s = none ∧ advanceFlight s = s) ∨
    (∃ base ps k now, flight s = some (base, ps) ∧ advanceFlight s = advanceBy k now base ps s) := by
  unfold advanceFlight
  cases flight s with
  | none => exact .inl ⟨rfl, rfl⟩
  | some bp =>
    obtain ⟨base, ps⟩ := bp
    exact .inr ⟨base, ps, Config.freeCount s.freeCtr, Config.freeBetween s.freeCtr, rfl, rfl⟩

/-- A step that raises a fault is the block's turn on the latched word, with at most the explicit turn taken off the
inputs. -/
theorem step_raises_fault {s t : State} (h : step s = .next t) (hf : s.fault = false) (ht : t.fault = true) :
    s.busy = true ∧ ∃ u, blockTurn u = .next t ∧ (u = s ∨ ∃ rest, s.inputs = .blockTurn :: rest ∧ u = popInput rest s) := by
  have hbusy : ∀ u : State, u.fault = false → blockTurn u = .next t → u.busy = true := by
    intro u hu hb
    rcases blockTurn_cases hb with ⟨_, rfl⟩ | ⟨hb, _⟩ | ⟨hb, _⟩
    · rw [hu] at ht; cases ht
    · exact hb
    · exact hb
  have hkeep : t.fault = s.fault → False := fun he => by rw [he, hf] at ht; cases ht
  rcases step_cases h with ⟨_, hb⟩ | ⟨rest, hi, hb⟩ | ⟨_, _, _, _, _, rfl⟩ | ⟨rest, off, _, data, _, _, rfl⟩ |
    ⟨_, _, _, hb⟩ | ⟨_, _, _, rfl⟩ | ⟨rest, a, _, rfl⟩ | ⟨rest, a, v, _, rfl⟩ | ⟨_, _, rfl⟩
  · exact ⟨hbusy s hf hb, s, hb, .inl rfl⟩
  · exact ⟨hbusy (popInput rest s) hf hb, popInput rest s, hb, .inr ⟨rest, hi, rfl⟩⟩
  · exact (hkeep rfl).elim
  · rcases hostWrite_cases off data (popInput rest s) with ⟨_, he⟩ | ⟨_, he⟩
    · exact (hkeep (by rw [he]; rfl)).elim
    · rw [he] at ht
      rcases acceptWrite_cases (regAt off) data (popInput rest s) with
        ⟨_, _, he'⟩ | ⟨_, _, he'⟩ | ⟨_, he'⟩ | ⟨_, he'⟩ | ⟨_, he'⟩ | ⟨_, he'⟩ | ⟨_, he'⟩ | ⟨_, he'⟩ | ⟨_, he'⟩ | he' <;>
        rw [he'] at ht
      · cases ht
      all_goals (change s.fault = true at ht; rw [hf] at ht; cases ht)
  · exact ⟨hbusy s hf hb, s, hb, .inl rfl⟩
  · exact (hkeep rfl).elim
  · rcases advanceFlight_cases (popInput rest s) with ⟨_, he⟩ | ⟨_, _, _, _, _, he⟩ <;>
      exact (hkeep (by unfold foreignRead; rw [he]; rfl)).elim
  · rcases advanceFlight_cases (popInput rest s) with ⟨_, he⟩ | ⟨_, _, _, _, _, he⟩ <;>
      exact (hkeep (by unfold foreignWrite; rw [he]; rfl)).elim
  · cases ht

end Sys2Proof.Machine
end

