-- ==== Sys2Proof/Laws/PerInstr.lean ====
section
/-! SUPPORT. The families of statements made per instruction. -/

namespace Sys2Proof.Laws

/-- The operation code of each command (30_encoding.md R73). -/
def opcodeOf : Instr → BitVec 8
  | .nop => 0x00#8
  | .sincos => 0x01#8
  | .xform => 0x02#8
  | .setpix _ => 0x10#8
  | .line _ => 0x11#8
  | .edge _ _ => 0x12#8
  | .reset => 0xFF#8

/-- The lowest byte of the word of a command is its operation code. -/
def OpcodeByte.Statement (i : Instr) : Prop := fieldOpc (encode i) = opcodeOf i

theorem OpcodeByte.nop : OpcodeByte.Statement .nop := by unfold OpcodeByte.Statement; decide

theorem OpcodeByte.sincos : OpcodeByte.Statement .sincos := by unfold OpcodeByte.Statement; decide

theorem OpcodeByte.xform : OpcodeByte.Statement .xform := by unfold OpcodeByte.Statement; decide

theorem OpcodeByte.setpix (b : Buf) : OpcodeByte.Statement (.setpix b) := by cases b <;> unfold OpcodeByte.Statement <;> decide

theorem OpcodeByte.line (b : Buf) : OpcodeByte.Statement (.line b) := by cases b <;> unfold OpcodeByte.Statement <;> decide

theorem OpcodeByte.edge (b : Buf) (e : Nat) : OpcodeByte.Statement (.edge b e) := by
  have h : ∀ x < 16, fieldOpc (0x00000012#32 ||| encodeBuf b ||| BitVec.ofNat 32 (4096 * x)) = 0x12#8 := by
    cases b <;> decide
  exact h (e % 16) (Nat.mod_lt _ (by decide))

theorem OpcodeByte.reset : OpcodeByte.Statement .reset := by unfold OpcodeByte.Statement; decide

end Sys2Proof.Laws
end

