-- ==== Sys2Proof/Tests/Slice0.lean ====
section
/-! SUPPORT. Tests: words written out from the spec's map, single steps whose expected results are the vectors of
95_test_vectors.md, and, for each statement with hypotheses, concrete states and operands that meet them. -/

namespace Sys2Proof.Tests

open Sys2Proof Sys2Proof.Machine

/-! ### Helpers -/

/-- The state of a next outcome. -/
def after (o : Host.Outcome State Fault Refusal) : State :=
  match o with
  | .next s => s
  | .fault _ => State.reset
  | .refused _ => State.reset

/-- The reset state with one command word latched. -/
def latched (w : Word) (s : State) : State := { s with cmd := w, busy := true }

/-- The reset state at angle `a`. -/
def atAngle (a : Nat) : State := { State.reset with angle := BitVec.ofNat 32 a }

/-- The reset state with FBBASE0 = 0x00020000 and the two points. -/
def withPoints (p q : Pixel) : State :=
  { State.reset with
    fbbase0 := 0x00020000#32, fbbase1 := 0x00030000#32,
    p0x := BitVec.ofInt 32 p.1, p0y := BitVec.ofInt 32 p.2, p1x := BitVec.ofInt 32 q.1, p1y := BitVec.ofInt 32 q.2 }

/-- The reset state with the results of XFORM at angle `a`. -/
def transformedAt (a : Nat) : State := after (exec .xform (atAngle a))

/-- The reset state in the fault state of a faulted LINE. -/
def faulted : State := after (exec (.line .fb0) (withPoints (0, 0) (320, 10)))

/-- The reset state with a LINE in flight. -/
def lineInFlight : State := latched 0x00000011#32 (withPoints (0, 0) (3, 2))

/-- The reference parameters with another half-edge. -/
def cubeOf (n : Nat) : Params := { paramsReference with cubeSize := n }

/-- CUBE_SIZE = 23171. -/
def cube23171 : Config := { toParams := cubeOf 23171, isLegal := by decide }

/-- CUBE_SIZE = 20000. -/
def cube20000 : Config := { toParams := cubeOf 20000, isLegal := by decide }

/-- CUBE_SIZE = 12000. -/
def cube12000 : Config := { toParams := cubeOf 12000, isLegal := by decide }

/-- CUBE_SIZE = 70. -/
def cube70 : Config := { toParams := cubeOf 70, isLegal := by decide }

/-- CUBE_SIZE = 30000, PROJ_SHIFT = 0, PERSP_UNIT = 32767. -/
def steepCube : Config :=
  { toParams := { cubeOf 30000 with projShift := 0, perspUnit := 32767 }, isLegal := by decide }

/-- The state at angle `a` under configuration `c`. -/
def under (c : Config) (a : Nat) : State := { atAngle a with cfg := c }

/-! ### Well-formedness and decoding (30_encoding.md R73, R76, R77; V-S3) -/

theorem test_wellFormed_eidx_refused : Instr.wellFormed (.edge .fb0 16) = false := by decide

theorem test_wellFormed_eidx_last : Instr.wellFormed (.edge .fb1 15) = true := by decide

theorem test_decode_nop : decode 0x00000000#32 = .ok .nop := by rfl

theorem test_decode_sincos : decode 0x00000001#32 = .ok .sincos := by rfl

theorem test_decode_xform : decode 0x00000002#32 = .ok .xform := by rfl

theorem test_decode_setpix : decode 0x00000010#32 = .ok (.setpix .fb0) ∧ decode 0x00000110#32 = .ok (.setpix .fb1) :=
  ⟨rfl, rfl⟩

theorem test_decode_line : decode 0x00000011#32 = .ok (.line .fb0) ∧ decode 0x00000111#32 = .ok (.line .fb1) :=
  ⟨rfl, rfl⟩

theorem test_decode_edge :
    decode 0x0000B112#32 = .ok (.edge .fb1 11) ∧ decode 0x0000C012#32 = .ok (.edge .fb0 12) ∧
    decode 0x00001012#32 = .ok (.edge .fb0 1) := ⟨rfl, rfl, rfl⟩

theorem test_decode_reset : decode 0x000000FF#32 = .ok .reset := by rfl

theorem test_decode_unassigned :
    decode 0x00000003#32 = .error (.unassignedOpcode 0x03#8) ∧ decode 0x00000013#32 = .error (.unassignedOpcode 0x13#8) ∧
    decode 0x000000FE#32 = .error (.unassignedOpcode 0xFE#8) := ⟨rfl, rfl, rfl⟩

theorem test_decode_reserved :
    decode 0x00000211#32 = .error .reservedBits ∧ decode 0x00010012#32 = .error .reservedBits ∧
    decode 0x80000000#32 = .error .reservedBits := ⟨rfl, rfl, rfl⟩

theorem test_decode_operand_outside :
    decode 0x00000101#32 = .error .operandOutsideFormat ∧ decode 0x00000102#32 = .error .operandOutsideFormat ∧
    decode 0x00001011#32 = .error .operandOutsideFormat ∧ decode 0x000001FF#32 = .error .operandOutsideFormat :=
  ⟨rfl, rfl, rfl, rfl⟩

/-- No word matches two rows of the map: two rows differ in a bit that both masks keep. -/
theorem test_rows_disjoint :
    opcodeRows.Pairwise (fun r r' => r.pat &&& (r.mask &&& r'.mask) ≠ r'.pat &&& (r.mask &&& r'.mask)) := by decide

theorem test_table_word : decodeTableWord 32 0xB112 = some (.edge .fb1 11) ∧ decodeTableWord 32 0x1FF = none :=
  ⟨rfl, rfl⟩

/-! ### Single steps -/

theorem test_fetch_runs_setpix :
    (after (step (State.reset.withFetchWord 32 0x10))).mem = [(0, 0x80#8)] := by decide

theorem test_fetch_runs_reset : (after (step (State.reset.withFetchWord 32 0xFF))).inputs = [] := by decide

/-- V-S3. -/
theorem test_illegal_word :
    statusWord (after (step (latched 0x00001011#32 State.reset))) = 0x00000012#32 ∧
    (after (step (latched 0x00001011#32 State.reset))).finfo = 0x00001011#32 := by decide

/-- V-S2. -/
theorem test_nop_status :
    statusWord (latched 0x00000000#32 State.reset) = 0x00000001#32 ∧
    statusWord (after (step (latched 0x00000000#32 State.reset))) = 0x00000000#32 := by decide

/-- V-T1, P1. -/
theorem test_sincos_210 :
    readReg (after (exec .sincos (atAngle 210))) .sin = 0xFFFFE000#32 ∧
    readReg (after (exec .sincos (atAngle 210))) .cos = 0xFFFFC893#32 := by decide

/-- V-T3. -/
theorem test_sincos_range :
    statusWord (after (exec .sincos { State.reset with angle := 0xFFFFFFFF#32, tpvalid := true })) = 0x00000026#32 ∧
    (after (exec .sincos (atAngle 360))).finfo = 0x00000168#32 := by decide

/-- V-X1 vertices 0 and 4; V-X2 vertex 7; V-X3 vertex 1. -/
theorem test_xform_vertices :
    (transformedAt 0).tp[0] = ⟨102, 70, -50⟩ ∧ (transformedAt 0).tp[4] = ⟨117, 85, 50⟩ ∧
    (transformedAt 1).tp[7] = ⟨115, 168, 49⟩ ∧ (transformedAt 30).tp[1] = ⟨244, 132, -42⟩ := by decide

/-- The overflow table of 95_test_vectors.md, one row for each stage and one at vertex 1. -/
theorem test_xform_overflow :
    (after (exec .xform (under cube23171 45))).finfo = 0x10#32 ∧
    (after (exec .xform (under cube20000 26))).finfo = 0x20#32 ∧
    (after (exec .xform (under cube20000 245))).finfo = 0x30#32 ∧
    (after (exec .xform (under steepCube 0))).finfo = 0x40#32 ∧
    (after (exec .xform (under cube20000 0))).finfo = 0x50#32 ∧
    (after (exec .xform (under cube12000 234))).finfo = 0x51#32 := by decide

/-- V-P1: (13, 2) in buffer 1, and the wrap of the address. -/
theorem test_setpix_byte :
    (after (exec (.setpix .fb1) (withPoints (13, 2) (0, 0)))).mem = [(0x00030051, 0x04#8)] ∧
    (after (exec (.setpix .fb0) { withPoints (8, 0) (0, 0) with fbbase0 := 0xFFFFFFFF#32 })).mem = [(0, 0x80#8)] := by
  decide

/-- V-L14. -/
theorem test_setpix_off_screen :
    (after (exec (.setpix .fb0) (withPoints (-1, 0) (0, 0)))).finfo = 0x0000FFFF#32 := by decide

/-- V-L9, V-L11. -/
theorem test_line_path :
    linePixels (0, 0) (3, 2) = [(0, 0), (1, 1), (2, 1), (3, 2)] ∧
    linePixels (5, 9) (2, 1) =
      [(2, 1), (2, 2), (3, 3), (3, 4), (3, 5), (4, 6), (4, 7), (4, 8), (5, 9)] := by decide

/-- V-L9, V-L14. -/
theorem test_line_memory :
    (after (exec (.line .fb0) (withPoints (0, 0) (3, 2)))).mem =
      [(0x00020000, 0x80#8), (0x00020028, 0x60#8), (0x00020050, 0x10#8)] ∧
    (after (exec (.line .fb0) (withPoints (5, 5) (5, -1)))).finfo = 0xFFFF0005#32 := by decide

/-- V-E1: edge 8 at angle 0 starts at (102, 70). -/
theorem test_edge_draws :
    (after (exec (.edge .fb0 8) (transformedAt 0))).mem.take 2 = [(2812, 0x02#8), (2852, 0x01#8)] := by decide

/-- V-E3. -/
theorem test_edge_faults :
    statusWord (after (exec (.edge .fb0 0) State.reset)) = 0x00000062#32 ∧
    statusWord (after (exec (.edge .fb0 12) State.reset)) = 0x00000052#32 ∧
    (after (exec (.edge .fb0 1) (after (exec .xform (under cube70 236))))).finfo = 0x010000AA#32 := by decide

/-- P4: RESET leaves the fault state and clears FINFO. -/
theorem test_reset_command :
    statusWord faulted = 0x00000042#32 ∧ statusWord (after (exec .reset faulted)) = 0x00000000#32 ∧
    (after (exec .reset faulted)).p1x = 0x00000000#32 := by decide

/-- V-S2: a write while BUSY = 1 is lost. -/
theorem test_write_while_busy :
    (after (step { lineInFlight with inputs := [wr 0x18 99] })).p0x = 0x00000000#32 := by decide

/-- V-S2: the registers that hold no write. -/
theorem test_write_read_only :
    (after (step { State.reset with inputs := [wr 0x08 5] })).finfo = 0x00000000#32 ∧
    (after (step { State.reset with inputs := [wr 0x10 5] })).sin = 0x0000#16 := by decide

/-- V-X1: RD TPZ[0]. -/
theorem test_read_tpz :
    (after (step { transformedAt 0 with inputs := [rd 0x48] })).hostLog = [.word 0xFFFFFFCE#32] := by decide

/-- 20_memory.md R58: between the read and the write of a SetPixel another agent's 0x01 is lost. -/
theorem test_foreign_write_lost :
    finishPixels 0x00020000#32 [(0x00020000, 0x01#8)] (some 0x40#8) [(0, 0)] = [(0x00020000, 0xC0#8)] := by decide

/-! ### Witnesses: encoding and the step -/

theorem test_witness_OperandsAreTheirBitFields :
    decode 0x00000110#32 = .ok (.setpix .fb1) ∧ decode 0x00000011#32 = .ok (.line .fb0) ∧
    decode 0x0000F112#32 = .ok (.edge .fb1 15) := ⟨rfl, rfl, rfl⟩

theorem test_witness_DecodeInvertsEncode : Instr.wellFormed (.edge .fb1 15) = true ∧ Instr.wellFormed .reset = true := by
  decide

theorem test_witness_EncodeInvertsDecode : decode 0x0000F012#32 = .ok (.edge .fb0 15) := by rfl

/-- Each of the five alternatives at one word, and each of the three shapes of the inputs. -/
theorem test_witness_IllegalWordsFault :
    (latched 0x00000101#32 State.reset).busy = true ∧ (latched 0x00000101#32 State.reset).inputs = [] ∧
    { latched 0x00000101#32 State.reset with inputs := [.blockTurn, .wait] }.inputs = .blockTurn :: [.wait] ∧
    { latched 0x00000101#32 State.reset with inputs := [.wait] }.inputs = .wait :: [] ∧
    (0x00000101#32 &&& 0xFFFFFFFF#32 ≠ 0x00#32 ∧
     0x00000101#32 &&& 0xFFFFFFFF#32 ≠ 0x01#32 ∧
     0x00000101#32 &&& 0xFFFFFFFF#32 ≠ 0x02#32 ∧
     0x00000101#32 &&& 0xFFFFFEFF#32 ≠ 0x10#32 ∧
     0x00000101#32 &&& 0xFFFFFEFF#32 ≠ 0x11#32 ∧
     0x00000101#32 &&& 0xFFFF0EFF#32 ≠ 0x12#32 ∧
     0x00000101#32 &&& 0xFFFFFFFF#32 ≠ 0xFF#32) ∧
    (0x00000003#32 &&& 0x000000FF#32) ∉ [0x00#32, 0x01#32, 0x02#32, 0x10#32, 0x11#32, 0x12#32, 0xFF#32] ∧
    (0x80000000#32 &&& 0xFFFF0E00#32) ≠ 0 ∧
    ((0x000001FF#32 &&& 0x000000FF#32) ∈ [0x00#32, 0x01#32, 0x02#32, 0xFF#32] ∧ (0x000001FF#32 &&& 0x0000F100#32) ≠ 0) ∧
    ((0x00001011#32 &&& 0x000000FF#32) ∈ [0x10#32, 0x11#32] ∧ (0x00001011#32 &&& 0x0000F000#32) ≠ 0) :=
  ⟨rfl, rfl, rfl, rfl, by decide, by decide, by decide, by decide, by decide⟩

/-- V-S3 at an explicit turn: the illegal word faults and the turn is taken off the inputs. -/
theorem test_illegal_word_at_turn :
    (after (step { latched 0x00000003#32 State.reset with inputs := [.blockTurn, .wait] })).finfo = 0x00000003#32 ∧
    (after (step { latched 0x00000003#32 State.reset with inputs := [.blockTurn, .wait] })).inputs = [.wait] := by decide

theorem test_witness_StepRunsTheLatchedCommand :
    lineInFlight.busy = true ∧ decode lineInFlight.cmd = .ok (.line .fb0) ∧ lineInFlight.inputs = [] ∧
    { lineInFlight with inputs := [.blockTurn] }.inputs = .blockTurn :: [] ∧
    { lineInFlight with inputs := [.wait] }.inputs = .wait :: [] := ⟨rfl, rfl, rfl, rfl, rfl⟩

theorem test_witness_IdleBlockDoesNothing :
    faulted.busy = false ∧ faulted.inputs = [] ∧ { faulted with inputs := [.blockTurn] }.inputs = .blockTurn :: [] :=
  ⟨rfl, rfl, rfl⟩

/-- The first and the last offset; a write discarded by BUSY, one discarded by FAULT, and the two that are accepted. -/
theorem test_witness_HostWritesFollowTheRegisterMap :
    (0x00 % 4 = 0 ∧ 0x00 < 0x100 ∧ 0xFC % 4 = 0 ∧ 0xFC < 0x100) ∧
    { lineInFlight with inputs := [wr 0xFC 5] }.inputs = .write 0xFC .word 5 :: [] ∧ lineInFlight.busy = true ∧
    (faulted.fault = true ∧ ¬((0x0C : Nat) = 0x00 ∧ 5#32 = 0x000000FF#32)) ∧
    ¬(faulted.busy = true ∨ (faulted.fault = true ∧ ¬((0x00 : Nat) = 0x00 ∧ 0x000000FF#32 = 0x000000FF#32))) ∧
    ¬(State.reset.busy = true ∨ (State.reset.fault = true ∧ ¬((0x2C : Nat) = 0x00 ∧ 7#32 = 0x000000FF#32))) :=
  ⟨by decide, rfl, rfl, by decide, by decide, by decide⟩

/-- The first and last TP register with TPVALID = 1, and the ends of the reserved ranges. -/
theorem test_witness_HostReadsFollowTheRegisterMap :
    { transformedAt 0 with inputs := [rd 0x40] }.inputs = .read 0x40 .word :: [] ∧ (transformedAt 0).tpvalid = true ∧
    0x40 = 0x40 + 16 * (0 : Fin 8).val ∧ 0xB8 = 0x48 + 16 * (7 : Fin 8).val ∧
    (0x30 ≤ 0x30 ∧ 0x3C ≤ 0x3C) ∧ 0x4C = 0x4C + 16 * 0 ∧ 0xBC = 0x4C + 16 * 7 ∧ 0xC0 ≤ 0xC0 ∧
    0xFC % 4 = 0 ∧ 0xFC < 0x100 := ⟨rfl, by decide, by decide⟩

theorem test_witness_UndefinedAccessesAreRefused :
    (AccessSize.byte ≠ AccessSize.word ∧ 2 % 4 ≠ 0 ∧ 0x100 ≤ 0x100) ∧
    { State.reset with inputs := [.read 0x00 .byte] }.inputs = .read 0x00 .byte :: [] ∧
    { State.reset with inputs := [.write 0x100 .word 1] }.inputs = .write 0x100 .word 1 :: [] :=
  ⟨by decide, rfl, rfl⟩

theorem test_witness_WaitEndsAfterTheCommand :
    { lineInFlight with inputs := [.wait, rd 0x04] }.busy = true ∧
    { lineInFlight with inputs := [.wait, rd 0x04] }.inputs = .wait :: [rd 0x04] := ⟨rfl, rfl⟩

/-! ### Witnesses: SINCOS and XFORM -/

/-- The table as a function, and both ends of each quadrant. -/
theorem test_witness_SincosWritesTheQuadrantPair :
    (∀ d < 90, (fun d => if d < 90 then ((configReference.sinTab.getD d 0 : Nat) : Int) else 16384) d =
      ((configReference.sinTab.getD d 0 : Nat) : Int)) ∧
    (fun d => if d < 90 then ((configReference.sinTab.getD d 0 : Nat) : Int) else 16384) 90 = 16384 ∧
    (∀ a ∈ [0, 89, 90, 179, 180, 269, 270, 359], (atAngle a).angle.toNat = a ∧ a < 360) := by
  refine ⟨fun d hd => ?_, rfl, by decide⟩
  simp only [hd, if_true]

theorem test_witness_SincosSymmetriesAndExactValues : 0 < 360 ∧ 359 < 360 := by decide

theorem test_witness_AngleOutOfRangeFaults : 360 ≤ (atAngle 360).angle.toNat := by decide

/-- Under the reference configuration at angle 0. -/
theorem test_witness_XformCommitsTheProjectedVertices :
    (atAngle 0).angle.toNat < 360 ∧ sincos (atAngle 0).cfg (atAngle 0).angle.toNat = (0, 16384) ∧
    (∀ i : Fin 8, VertexRule (atAngle 0).cfg 0 16384 (modelVertex (atAngle 0).cfg.cubeSize i.val)
      (vertexWork (atAngle 0).cfg 0 16384 (model (atAngle 0).cfg i))) ∧
    (∀ i : Fin 8, ∀ k, 1 ≤ k → k ≤ 5 → stagePasses (vertexWork (atAngle 0).cfg 0 16384 (model (atAngle 0).cfg i)) k) := by
  refine ⟨by decide, by decide, fun i => ?_, fun i => failedStage_none_iff.1 ?_⟩
  · rw [modelVertex_eq]; exact vertexWork_rule _ _ _ _
  · revert i; decide

/-- CUBE_SIZE = 12000 at angle 234: vertex 0 passes and vertex 1 fails at stage 5 (95_test_vectors.md). -/
theorem test_witness_XformReportsTheFirstOverflow :
    (under cube12000 234).angle.toNat < 360 ∧
    sincos cube12000 (under cube12000 234).angle.toNat = (-13255, -9630) ∧
    (∀ j : Fin 8, VertexRule cube12000 (-13255) (-9630) (modelVertex cube12000.cubeSize j.val)
      (vertexWork cube12000 (-13255) (-9630) (model cube12000 j))) ∧
    (∀ j : Fin 8, j < 1 → ∀ k, 1 ≤ k → k ≤ 5 →
      stagePasses (vertexWork cube12000 (-13255) (-9630) (model cube12000 j)) k) ∧
    (∀ k, 1 ≤ k → k < 5 → stagePasses (vertexWork cube12000 (-13255) (-9630) (model cube12000 1)) k) ∧
    ¬stagePasses (vertexWork cube12000 (-13255) (-9630) (model cube12000 1)) 5 := by
  refine ⟨by decide, by decide, fun j => ?_, fun j hj => failedStage_none_iff.1 ?_, fun k h1 h5 => ?_, ?_⟩
  · rw [modelVertex_eq]; exact vertexWork_rule _ _ _ _
  · have : j = 0 := Fin.ext (by have := Fin.lt_def.1 hj; simpa using this)
    subst this; decide
  · interval_cases k <;> (simp only [stagePasses]; decide)
  · simp only [stagePasses]; decide

theorem test_witness_UncheckedProductsFitThirtyTwoBits :
    359 < 360 ∧ (-32768 ≤ (-32768 : Int) ∧ (-32768 : Int) ≤ 32767) ∧ (-32768 ≤ (32767 : Int) ∧ (32767 : Int) ≤ 32767) := by
  decide

theorem test_witness_ExactAnglesPermuteCoordinates :
    ∀ a ∈ [0, 90, 180, 270],
      VertexRule configReference (sincos configReference a).1 (sincos configReference a).2 ⟨-50, 50, 7⟩
        (vertexWork configReference (sincos configReference a).1 (sincos configReference a).2 ⟨-50, 50, 7⟩) :=
  fun _ _ => vertexWork_rule _ _ _ _

theorem test_witness_ReferenceAnimationStaysOnScreen :
    (atAngle 0).cfg = configReference ∧ (atAngle 0).angle.toNat < 360 ∧ (atAngle 359).angle.toNat < 360 :=
  ⟨rfl, by decide, by decide⟩

theorem test_witness_XformForgetsHistory :
    (transformedAt 30).cfg = (atAngle 30).cfg ∧ (transformedAt 30).angle = (atAngle 30).angle ∧
    (transformedAt 30).tp ≠ (atAngle 30).tp := ⟨by decide, by decide, by decide⟩

/-! ### Witnesses: SETPIX, LINE, EDGE -/

/-- On the screen with the call still to be made, with its read made, and made; and off the screen. -/
theorem test_witness_SetpixOrsOneBit :
    ((withPoints (319, 255) (0, 0)).p0x.toInt = 319 ∧ (withPoints (319, 255) (0, 0)).p0y.toInt = 255 ∧
      OnScreen (319, 255) ∧ (withPoints (319, 255) (0, 0)).drawn = 0 ∧ (withPoints (319, 255) (0, 0)).held = none) ∧
    { withPoints (319, 255) (0, 0) with held := some 0x40#8 }.held = some 0x40#8 ∧
    { withPoints (319, 255) (0, 0) with drawn := 1 }.drawn ≠ 0 ∧
    ((withPoints (320, 0) (0, 0)).p0x.toInt = 320 ∧ (withPoints (320, 0) (0, 0)).p0y.toInt = 0 ∧ ¬OnScreen (320, 0)) := by
  decide

theorem test_witness_LineChecksThenDraws :
    ((-1, 0) = ((withPoints (-1, 0) (0, 0)).p0x.toInt, (withPoints (-1, 0) (0, 0)).p0y.toInt) ∧ ¬OnScreen (-1, 0)) ∧
    ((0, 256) = ((withPoints (0, 0) (0, 256)).p1x.toInt, (withPoints (0, 0) (0, 256)).p1y.toInt) ∧
      OnScreen (0, 0) ∧ ¬OnScreen (0, 256)) ∧
    ((319, 255) = ((withPoints (0, 0) (319, 255)).p1x.toInt, (withPoints (0, 0) (319, 255)).p1y.toInt) ∧
      OnScreen (0, 0) ∧ OnScreen (319, 255)) := by decide

/-- EIDX 12; TPVALID = 0 at EIDX 11; and with CUBE_SIZE = 70 at angle 236 edges 2, 1 and 11, of which the first starts
and the second ends at vertex 2, off the screen (V-E3). -/
theorem test_witness_EdgeChecksThenDraws :
    12 ≤ 12 ∧ (11 < 12 ∧ State.reset.tpvalid = false) ∧
    (let s := after (exec .xform (under cube70 236))
     s.tpvalid = true ∧ edgeTable.toList[2]? = some (2, 3) ∧ ¬OnScreen (s.tp[2].x.toInt, s.tp[2].y.toInt) ∧
     edgeTable.toList[1]? = some (1, 2) ∧ OnScreen (s.tp[1].x.toInt, s.tp[1].y.toInt) ∧
     edgeTable.toList[11]? = some (3, 7) ∧ OnScreen (s.tp[3].x.toInt, s.tp[3].y.toInt) ∧
     OnScreen (s.tp[7].x.toInt, s.tp[7].y.toInt)) := by decide

theorem test_witness_StraightSegmentsAscend : (0 : Int) ≠ 319 := by decide

/-- The steep segment of V-L11, in both coordinates. -/
theorem test_witness_GeneralCaseClosedForm :
    ((5, 9) : Pixel).1 ≠ ((2, 1) : Pixel).1 ∧ ((5, 9) : Pixel).2 ≠ ((2, 1) : Pixel).2 ∧
    (((1, 2) : Pixel), ((9, 5) : Pixel)) = ordered (majorMinor (5, 9) (2, 1)) ∧
    (8 : Int) = 9 - 1 ∧ (3 : Int) = |5 - 2| ∧ (1 : Int) = (if (2 : Int) < 5 then 1 else -1) ∧
    (∀ i : Int, (fun i : Int => -((-((i + 1) * 3)) / 8) - 1) i = -((-((i + 1) * 3)) / 8) - 1) :=
  ⟨by decide, by decide, by decide, by decide, by decide, by decide, fun _ => rfl⟩

theorem test_witness_LineIsAConnectedPathBetweenItsEndpoints :
    OnScreen (5, 9) ∧ OnScreen (2, 1) ∧ 0 + 1 < (linePixels (5, 9) (2, 1)).length ∧
    7 + 1 < (linePixels (5, 9) (2, 1)).length := by decide

theorem test_witness_LineStaysInItsBoxWithoutRepeats :
    OnScreen (0, 0) ∧ OnScreen (319, 255) ∧ (2, 1) ∈ linePixels (0, 0) (3, 2) := by decide

theorem test_witness_LineIgnoresItsDirection : OnScreen (0, 255) ∧ OnScreen (319, 0) := by decide

/-- A segment that is not steep, one that is, and the two straight ones. -/
theorem test_witness_LineMirrorsAlongItsMinorAxis :
    |((3, 2) : Pixel).2 - 0| ≤ |((3, 2) : Pixel).1 - 0| ∧ |((2, 5) : Pixel).1 - 0| < |((2, 5) : Pixel).2 - 0| ∧
    ((4, 0) : Pixel).1 = ((4, 9) : Pixel).1 ∧ ((0, 4) : Pixel).2 = ((9, 4) : Pixel).2 := by decide

/-- A LINE none of whose calls, and one two of whose calls, have been performed. -/
theorem test_witness_DrawnPixelsAreExactlyThePlan :
    (withPoints (0, 0) (3, 2)).mem.wf = true ∧ (withPoints (0, 0) (3, 2)).held = none ∧
    drawPlan (.line .fb0) (withPoints (0, 0) (3, 2)) = some (.fb0, .ok (linePixels (0, 0) (3, 2))) ∧
    drawPlan (.line .fb0) { withPoints (0, 0) (3, 2) with drawn := 2 } = some (.fb0, .ok (linePixels (0, 0) (3, 2))) ∧
    OnScreen (319, 255) ∧ ¬inFramebuffer 0x00020000#32 0x00022800 := by
  refine ⟨by decide, rfl, rfl, rfl, by decide, ?_⟩
  rintro ⟨off, h1, h2⟩
  have : (0x00020000#32).toNat = 131072 := by decide
  omega

/-- A LINE whose third call has read 0x60 from the byte of (2, 1), and one all of whose calls have been made. -/
theorem test_witness_HeldByteIsWrittenBack :
    { withPoints (0, 0) (3, 2) with drawn := 2, held := some 0x60#8 }.mem.wf = true ∧
    { withPoints (0, 0) (3, 2) with drawn := 2, held := some 0x60#8 }.held = some 0x60#8 ∧
    drawPlan (.line .fb0) { withPoints (0, 0) (3, 2) with drawn := 2, held := some 0x60#8 } =
      some (.fb0, .ok (linePixels (0, 0) (3, 2))) ∧
    (linePixels (0, 0) (3, 2)).drop 2 = (2, 1) :: [(3, 2)] ∧ (linePixels (0, 0) (3, 2)).drop 4 = [] ∧
    pixelAddr 0x00020000#32 (2, 1) = pixelAddr 0x00020000#32 (7, 1) ∧
    pixelAddr 0x00020000#32 (2, 1) ≠ pixelAddr 0x00020000#32 (0, 0) := ⟨rfl, rfl, rfl, by decide, by decide, by decide, by decide⟩

theorem test_witness_DrawingLeavesEverythingElse :
    drawPlan (.line .fb0) (withPoints (0, 0) (3, 2)) = some (.fb0, .ok (linePixels (0, 0) (3, 2))) ∧
    drawPlan (.setpix .fb1) (withPoints (320, 0) (0, 0)) = some (.fb1, .error ⟨.coordRange, 0x00000140#32⟩) ∧
    (∀ p ∈ linePixels (0, 0) (3, 2), pixelAddr 0x00020000#32 p ≠ 0x00020001) := by
  refine ⟨rfl, rfl, by decide⟩

theorem test_witness_CommandsOnlySetBits :
    (withPoints (0, 0) (3, 2)).mem.wf = true ∧ (withPoints (0, 0) (3, 2)).held = none ∧
    ∃ t, exec (.line .fb0) (withPoints (0, 0) (3, 2)) = .next t := ⟨rfl, rfl, _, rfl⟩

theorem test_witness_DrawOrderDoesNotMatter :
    Memory.wf [(0, 0x80#8)] = true ∧
    ∀ p : Pixel, p ∈ [((0, 0) : Pixel), (1, 1)] ↔ p ∈ [((1, 1) : Pixel), (0, 0), (1, 1)] := by
  refine ⟨rfl, fun p => ?_⟩
  simp only [List.mem_cons, List.not_mem_nil, or_false]
  tauto

theorem test_witness_LineTwiceIsLineOnce :
    (withPoints (0, 0) (3, 2)).mem.wf = true ∧ (withPoints (0, 0) (3, 2)).drawn = 0 ∧
    (withPoints (0, 0) (3, 2)).held = none ∧ ∃ t, exec (.line .fb0) (withPoints (0, 0) (3, 2)) = .next t :=
  ⟨rfl, rfl, rfl, _, rfl⟩

/-! ### Witnesses: faults -/

/-- A step that faults, from a state without a fault, with a WAIT pending and at an explicit turn of the block. -/
theorem test_witness_FaultsArePrecise :
    (∃ t, (latched 0x00000003#32 State.reset).fault = false ∧
      step { latched 0x00000003#32 State.reset with inputs := [.wait] } = .next t ∧ t.fault = true ∧
      t.inputs = [.wait]) ∧
    (∃ t, step { latched 0x00000003#32 State.reset with inputs := [.blockTurn] } = .next t ∧ t.fault = true ∧
      [.blockTurn] = .blockTurn :: t.inputs) := ⟨⟨_, rfl, rfl, rfl, rfl⟩, ⟨_, rfl, rfl, rfl⟩⟩

/-- One faulting step for each of the six causes; COORD_RANGE at SETPIX, at both points of LINE and at both vertices of
EDGE (V-E3, V-L14). -/
theorem test_witness_FaultCausesAreComplete :
    ∀ sc ∈ [(latched 0x00000003#32 State.reset, 1), (latched 0x00000001#32 (atAngle 360), 2),
        (latched 0x00000002#32 (under cube23171 45), 3), (latched 0x00000010#32 (withPoints (320, 0) (0, 0)), 4),
        (latched 0x00000011#32 (withPoints (320, 10) (0, 0)), 4), (latched 0x00000011#32 (withPoints (0, 0) (320, 10)), 4),
        (latched 0x00002012#32 (after (exec .xform (under cube70 236))), 4),
        (latched 0x00001012#32 (after (exec .xform (under cube70 236))), 4),
        (latched 0x0000C012#32 State.reset, 5), (latched 0x0000B012#32 State.reset, 6)],
      sc.1.fault = false ∧ (after (step sc.1)).fault = true ∧
      (statusWord (after (step sc.1))).extractLsb' 4 4 = BitVec.ofNat 4 sc.2 := by decide

/-- A halted block, with each of the three inputs that the statement tells apart. -/
theorem test_witness_OnlyResetLeavesTheFaultState :
    faulted.fault = true ∧ faulted.busy = false ∧
    (∃ t, step { faulted with inputs := [.hardwareReset] } = .next t) ∧
    (∃ t, step { faulted with inputs := [wr 0x00 0x000000FF#32] } = .next t) ∧
    (∃ t, step { faulted with inputs := [.memWrite 0 1] } = .next t) :=
  ⟨rfl, rfl, ⟨_, rfl⟩, ⟨_, rfl⟩, ⟨_, rfl⟩⟩

/-! ### Witnesses: the invariant -/

/-- A XFORM in flight satisfies the invariant. -/
theorem inv_xform_latched : Inv (latched 0x00000002#32 (atAngle 30)) :=
  ⟨by decide, by decide, by decide, by decide, by decide, by decide, by decide, by decide, by decide, by decide⟩

/-- The results of XFORM at angle 30 satisfy the invariant. -/
theorem inv_transformed : Inv (transformedAt 30) :=
  ⟨by decide, by decide, by decide, by decide, by decide, by decide, by decide, by decide, by decide,
    fun _ => ⟨30, by decide, by decide, by decide⟩⟩

theorem test_witness_EveryStepKeepsTheInvariant :
    ∃ t, Inv (latched 0x00000002#32 (atAngle 30)) ∧ step (latched 0x00000002#32 (atAngle 30)) = .next t :=
  ⟨_, inv_xform_latched, rfl⟩

/-- TPVALID rises by the XFORM in flight, and falls by the RESET word. -/
theorem test_witness_TpvalidRisesByXformAndFallsByReset :
    (Inv (latched 0x00000002#32 (atAngle 30)) ∧ (latched 0x00000002#32 (atAngle 30)).tpvalid = false ∧
      ∃ t, step (latched 0x00000002#32 (atAngle 30)) = .next t ∧ t.tpvalid = true) ∧
    (Inv { transformedAt 30 with inputs := [wr 0x00 0x000000FF#32] } ∧ (transformedAt 30).tpvalid = true ∧
      ∃ t, step { transformedAt 30 with inputs := [wr 0x00 0x000000FF#32] } = .next t ∧ t.tpvalid = false) :=
  ⟨⟨inv_xform_latched, by decide, _, rfl, by decide⟩,
    ⟨⟨inv_transformed.1, inv_transformed.2, inv_transformed.3, inv_transformed.4, inv_transformed.5,
      inv_transformed.6, inv_transformed.7, inv_transformed.8, inv_transformed.9,
      inv_transformed.10⟩, by decide, _, rfl, rfl⟩⟩

/-- An XFORM that changes SIN, COS, TP, TPVALID and BUSY, a write that changes ANGLE, one that raises BUSY, and an
illegal word that changes FAULT, CAUSE and FINFO. -/
theorem test_witness_RegistersChangeOnlyByTheirWriters :
    (∃ t, Inv (latched 0x00000002#32 (atAngle 30)) ∧ step (latched 0x00000002#32 (atAngle 30)) = .next t ∧
      (∀ rest, (latched 0x00000002#32 (atAngle 30)).inputs ≠ .hardwareReset :: rest) ∧
      (∀ rest, (latched 0x00000002#32 (atAngle 30)).inputs ≠ .write 0x00 .word 0x000000FF#32 :: rest)) ∧
    (after (step (latched 0x00000002#32 (atAngle 30)))).tp ≠ (atAngle 30).tp ∧
    (after (step { transformedAt 30 with inputs := [wr 0x0C 7] })).angle ≠ (transformedAt 30).angle ∧
    (after (step { transformedAt 30 with inputs := [wr 0x00 0] })).busy ≠ (transformedAt 30).busy ∧
    (after (step (latched 0x00000003#32 (transformedAt 30)))).finfo ≠ (transformedAt 30).finfo := by
  refine ⟨⟨_, inv_xform_latched, rfl, fun rest h => ?_, fun rest h => ?_⟩, by decide, by decide, by decide, by decide⟩ <;>
    cases h

theorem test_witness_MemoryChangesOnlyByDrawingOrOtherAgents :
    (∃ t, step lineInFlight = .next t ∧ t.mem ≠ lineInFlight.mem) ∧
    (∃ t, step { State.reset with inputs := [.memWrite 5 1] } = .next t ∧ t.mem ≠ State.reset.mem) :=
  ⟨⟨_, rfl, by decide⟩, ⟨_, rfl, by decide⟩⟩

theorem test_witness_ConfigurationNeverChanges :
    ∃ t, step (latched 0x00000002#32 (under cube70 236)) = .next t := ⟨_, rfl⟩

/-- A hardware reset of an idle block, and one that cuts a LINE. -/
theorem test_witness_HardwareResetLeavesAFirstPartOfTheDrawing :
    ({ faulted with inputs := [.hardwareReset] }.inputs = .hardwareReset :: [] ∧ flight faulted = none) ∧
    flight { lineInFlight with inputs := [.hardwareReset] } = some (0x00020000#32, linePixels (0, 0) (3, 2)) :=
  ⟨⟨rfl, rfl⟩, rfl⟩

/-- A LINE in flight and a write to the byte of its first pixel. -/
theorem test_witness_ForeignWriteInterleavesWithTheDrawing :
    { lineInFlight with inputs := [.memWrite 0x00020000#32 0x01#8] }.mem.wf = true ∧
    { lineInFlight with inputs := [.memWrite 0x00020000#32 0x01#8] }.held = none ∧
    { lineInFlight with inputs := [.memWrite 0x00020000#32 0x01#8] }.inputs = [.memWrite 0x00020000#32 0x01#8] ∧
    flight { lineInFlight with inputs := [.memWrite 0x00020000#32 0x01#8] } =
      some (0x00020000#32, linePixels (0, 0) (3, 2)) := ⟨rfl, rfl, rfl, rfl⟩

theorem test_witness_ForeignReadSeesAFirstPartOfTheDrawing :
    ({ faulted with inputs := [.memRead 0] }.inputs = .memRead 0 :: [] ∧ flight faulted = none) ∧
    (flight { lineInFlight with inputs := [.memRead 0], drawn := 4 } = some (0x00020000#32, linePixels (0, 0) (3, 2)) ∧
      4 ≤ (linePixels (0, 0) (3, 2)).length) := ⟨⟨rfl, rfl⟩, ⟨rfl, by decide⟩⟩

theorem test_witness_ReferenceEdgesNeverFault :
    Inv (transformedAt 30) ∧ (transformedAt 30).cfg = configReference ∧ (transformedAt 30).tpvalid = true ∧
    0 < 12 ∧ 11 < 12 := ⟨inv_transformed, by decide, by decide, by decide, by decide⟩

end Sys2Proof.Tests
end

/-! PROOFS of the family 00_scope.md: the reference animation (R11). What concerns every configuration, the size of the
sine pair, of a rotation and of a rotated vertex, comes first. -/

namespace Sys2Proof.Machine

/-! ### Sizes of the sine pair and of a rotated vertex -/

/-- An entry that R10 (d) allows is the scaled sine's floor or one above it, so it is at most 16384. -/
theorem sineLegal_le {d v : Nat} (hd : d < 90) (h : sineLegal d v = true) : v ≤ 16384 := by
  have hfloor : ∀ d < 90, sineFloor.getD d 0 ≤ 16381 := by decide
  have hv : v = sineFloor.getD d 0 ∨ v = sineFloor.getD d 0 + 1 := by
    simp only [sineLegal, Bool.or_eq_true, Bool.and_eq_true, beq_iff_eq] at h
    exact h.imp_right fun ⟨⟨hv, _⟩, _⟩ => hv
  have := hfloor d hd
  omega

/-- Every entry of a legal SINTAB is one that R10 (d) allows. -/
theorem sinTab_sineLegal (c : Config) {d : Nat} (hd : d < 90) : sineLegal d (c.sinTab.getD d 0) = true := by
  have h := c.isLegal
  simp only [Params.legal, Bool.and_eq_true] at h
  exact List.all_eq_true.1 h.2 d (List.mem_range.2 hd)

theorem sineQ_range (c : Config) (i : Nat) : 0 ≤ sineQ c i ∧ sineQ c i ≤ 16384 := by
  unfold sineQ
  split
  · have := sineLegal_le (by omega) (sinTab_sineLegal c (d := i) (by omega))
    omega
  · decide

/-- In every quadrant the pair is two table values up to sign. -/
theorem abs_sincos_le (c : Config) (a : Nat) : |(sincos c a).1| ≤ 16384 ∧ |(sincos c a).2| ≤ 16384 := by
  have hq : ∀ i, |sineQ c i| ≤ 16384 := fun i => by
    rw [abs_of_nonneg (sineQ_range c i).1]
    exact (sineQ_range c i).2
  unfold sincos
  split_ifs <;> simp only [abs_neg, hq, and_self]

theorem abs_asr_le {n : Nat} {v k : Int} (h : |v| ≤ k * 2 ^ n) : |asr n v| ≤ k := by
  have hpos : (0 : Int) < 2 ^ n := by positivity
  obtain ⟨hlo, hhi⟩ := abs_le.1 h
  refine abs_le.2 ⟨(Int.le_ediv_iff_mul_le hpos).2 (by linarith), ?_⟩
  exact Int.ediv_le_of_le_mul hpos hhi

/-- A rotation by a sine pair of scale 2^14 gives at most the sum of the two sizes. -/
theorem abs_rot2_le {a b sn cs A B : Int} (ha : |a| ≤ A) (hb : |b| ≤ B) (hs : |sn| ≤ 16384) (hc : |cs| ≤ 16384) :
    |(rot2 a b sn cs).1| ≤ A + B ∧ |(rot2 a b sn cs).2| ≤ A + B := by
  have hprod : ∀ {p q P : Int}, |p| ≤ P → |q| ≤ 16384 → |p * q| ≤ P * 16384 := fun hp hq => by
    rw [abs_mul]
    exact mul_le_mul hp hq (abs_nonneg _) ((abs_nonneg _).trans hp)
  have hfst := abs_sub (a * cs) (b * sn)
  have hsnd := abs_add_le (a * sn) (b * cs)
  have := hprod ha hc
  have := hprod hb hs
  have := hprod ha hs
  have := hprod hb hc
  exact ⟨abs_asr_le (by linarith), abs_asr_le (by linarith)⟩

theorem abs_model (c : Config) (i : Fin 8) :
    |(model c i).x| = c.cubeSize ∧ |(model c i).y| = c.cubeSize ∧ |(model c i).z| = c.cubeSize := by
  fin_cases i <;> simp [model, modelTable]

/-- Each of the three rotations adds the sizes of its operands (41_transform.md R103 to R105). -/
theorem abs_vertexWork_rotated_le (c : Config) {sn cs S : Int} {v : IntVec3}
    (hx : |v.x| ≤ S) (hy : |v.y| ≤ S) (hz : |v.z| ≤ S) (hs : |sn| ≤ 16384) (hc : |cs| ≤ 16384) :
    (|(vertexWork c sn cs v).x1| ≤ 2 * S ∧ |(vertexWork c sn cs v).z1| ≤ 2 * S) ∧
    (|(vertexWork c sn cs v).y2| ≤ 3 * S ∧ |(vertexWork c sn cs v).z2| ≤ 3 * S) ∧
    (|(vertexWork c sn cs v).x3| ≤ 5 * S ∧ |(vertexWork c sn cs v).y3| ≤ 5 * S) := by
  have h1 := abs_rot2_le hx hz hs hc
  have h2 := abs_rot2_le hy h1.2 hs hc
  have h3 := abs_rot2_le h1.1 h2.1 hs hc
  rw [show 2 * S = S + S by ring, show 3 * S = S + (S + S) by ring, show 5 * S = S + S + (S + (S + S)) by ring]
  exact ⟨h1, h2, h3⟩

/-! ### XFORM under the reference configuration -/

/-- The half-edge of 50 is so small that no sine pair makes a check fail: the rotations stay within 100, 150 and 250,
and zf within 374. -/
theorem failedStage_reference {sn cs : Int} (hs : |sn| ≤ 16384) (hc : |cs| ≤ 16384) (i : Fin 8) :
    failedStage (vertexWork configReference sn cs (model configReference i)) = none := by
  have hrule := vertexWork_rule configReference sn cs (model configReference i)
  obtain ⟨hx, hy, hz⟩ := abs_model configReference i
  obtain ⟨⟨hx1, hz1⟩, ⟨hy2, hz2⟩, hx3, hy3⟩ :=
    abs_vertexWork_rotated_le configReference (S := 50) hx.le hy.le hz.le hs hc
  set w := vertexWork configReference sn cs (model configReference i)
  have hzf : |w.zf| ≤ 374 := by
    have hzf' : w.zf = 256 - w.z2 * 200 / 256 := hrule.zf
    rw [abs_le] at hz2 ⊢
    omega
  have hscaled : ∀ {p : Int}, |p| ≤ 250 → |p * w.zf| ≤ 93500 := fun hp => by
    rw [abs_mul]
    exact mul_le_mul hp hzf (abs_nonneg _) (by decide)
  have hpx : |w.px| ≤ 93500 := hrule.px ▸ hscaled hx3
  have hpy : |w.py| ≤ 93500 := hrule.py ▸ hscaled hy3
  have hsx : w.sx = w.px / 256 + 160 := hrule.sx
  have hsy : w.sy = w.py / 256 + 128 := hrule.sy
  rw [abs_le] at hx1 hz1 hy2 hz2 hx3 hy3 hpx hpy
  refine failedStage_none_iff.2 fun k h1 h5 => ?_
  interval_cases k <;> (simp only [stagePasses]; omega)

/-- R108 finds nothing under the reference configuration, at any angle. -/
theorem overflowFault_reference (a : Nat) :
    overflowFault configReference (sincos configReference a).1 (sincos configReference a).2 = none :=
  overflowFault_none_iff.2 fun i =>
    failedStage_reference (abs_sincos_le configReference a).1 (abs_sincos_le configReference a).2 i

/-- The arithmetic of vertex `i` at angle `a` under the reference configuration. -/
def referenceWork (a : Nat) (i : Fin 8) : VertexWork :=
  vertexWork configReference (sincos configReference a).1 (sincos configReference a).2 (model configReference i)

/-- The box of R11. -/
abbrev InReferenceBox (w : VertexWork) : Prop :=
  (68 ≤ w.sx ∧ w.sx ≤ 248) ∧ (40 ≤ w.sy ∧ w.sy ≤ 216) ∧ (-87 ≤ w.z2 ∧ w.z2 ≤ 86)

/-- The box of R11 over the 90 angles of quadrant `q`, 0 to 3 (40_trig.md R93). -/
abbrev QuadrantInBox (q : Nat) : Prop := ∀ d < 90, ∀ i : Fin 8, InReferenceBox (referenceWork (90 * q + d) i)

theorem quadrantInBox_zero : QuadrantInBox 0 := by decide

theorem quadrantInBox_one : QuadrantInBox 1 := by decide

theorem quadrantInBox_two : QuadrantInBox 2 := by decide

theorem quadrantInBox_three : QuadrantInBox 3 := by decide

theorem referenceWork_inBox {a : Nat} (ha : a < 360) (i : Fin 8) : InReferenceBox (referenceWork a i) := by
  have hquadrant : QuadrantInBox (a / 90) := by
    have hq : a / 90 < 4 := by omega
    interval_cases a / 90
    · exact quadrantInBox_zero
    · exact quadrantInBox_one
    · exact quadrantInBox_two
    · exact quadrantInBox_three
  have h := hquadrant (a % 90) (Nat.mod_lt a (by decide)) i
  rwa [Nat.div_add_mod] at h

/-- A projected vertex in the box is stored without loss, since the box fits the s16 registers. -/
theorem projected_toInt_of_inReferenceBox {w : VertexWork} (h : InReferenceBox w) :
    (projected w).x.toInt = w.sx ∧ (projected w).y.toInt = w.sy ∧ (projected w).z.toInt = w.z2 :=
  ⟨toInt_toHalf (by omega), toInt_toHalf (by omega), toInt_toHalf (by omega)⟩

theorem getElem_transformed (c : Config) (sn cs : Int) (i : Fin 8) :
    (transformed c sn cs)[i] = projected (vertexWork c sn cs (model c i)) := by
  simp [transformed]

theorem exec_xform_of_xformFault_none {s : State} (h : xformFault s = none) :
    exec .xform s = .next (complete (commitXform s)) := by
  rcases execXform_cases s with ⟨f, hf, _⟩ | ⟨_, he⟩
  · rw [h] at hf
    cases hf
  · exact he

/-- Settles O23: no check can fail for so small a cube, and the box is R11's own evaluation of all 360 angles, by
quadrant. -/
theorem referenceAnimationStaysOnScreen : Obligations.ReferenceAnimationStaysOnScreen := by
  unfold Obligations.ReferenceAnimationStaysOnScreen
  intro s hcfg hangle
  have hnone : xformFault s = none :=
    xformFault_none_iff.2 ⟨hangle, by rw [hcfg]; exact overflowFault_reference (angleOf s)⟩
  refine ⟨_, exec_xform_of_xformFault_none hnone, rfl, rfl, rfl, fun i => ?_⟩
  have hbox := referenceWork_inBox (a := angleOf s) hangle i
  obtain ⟨hx, hy, hz⟩ := projected_toInt_of_inReferenceBox hbox
  have htp : (complete (commitXform s)).tp[i] = projected (referenceWork (angleOf s) i) := by
    rw [complete_tp, commitXform_tp, getElem_transformed, hcfg]
    rfl
  rw [htp, hx, hy, hz]
  exact hbox

end Sys2Proof.Machine

/-! PROOFS of the family 30_encoding.md: a word is the command of the one row of R73 it matches, and every other word
faults (R76, R161). Rows first, then the decoder, then the block's turn. -/

namespace Sys2Proof

/-! ### The rows of the opcode map -/

/-- The bits of a matching word that the row's mask covers are the row's own. -/
theorem and_eq_pat_and_of_match {r : OpcodeRow} {w k : Word} (h : w &&& r.mask = r.pat) (hk : r.mask &&& k = k) :
    w &&& k = r.pat &&& k := by
  rw [← h, BitVec.and_assoc, hk]

/-- Every mask of R73 covers OPC. -/
theorem opcodeRows_mask_opc : ∀ r ∈ opcodeRows, r.mask &&& 0x000000FF#32 = 0x000000FF#32 := by decide

/-- OPC alone tells the rows of R73 apart. -/
theorem opcodeRows_opc_nodup : (opcodeRows.map fun r => r.pat &&& 0x000000FF#32).Nodup := by decide

theorem opcodeRow_unique {r r' : OpcodeRow} {w : Word} (hr : r ∈ opcodeRows) (hr' : r' ∈ opcodeRows)
    (h : w &&& r.mask = r.pat) (h' : w &&& r'.mask = r'.pat) : r = r' := by
  have hopc : r.pat &&& 0x000000FF#32 = r'.pat &&& 0x000000FF#32 := by
    rw [← and_eq_pat_and_of_match h (opcodeRows_mask_opc r hr),
      ← and_eq_pat_and_of_match h' (opcodeRows_mask_opc r' hr')]
  exact List.inj_on_of_nodup_map opcodeRows_opc_nodup hr hr' hopc

/-! ### The decoder -/

/-- Since no word matches two rows, the decoder's order of search is of no account. -/
theorem decode_eq_ok_iff {w : Word} {i : Instr} :
    decode w = .ok i ↔ ∃ r ∈ opcodeRows, w &&& r.mask = r.pat ∧ r.build w = i := by
  unfold decode
  cases hfind : opcodeRows.find? (fun r => w &&& r.mask == r.pat) with
  | none =>
    have hnone := List.find?_eq_none.1 hfind
    simp only [beq_iff_eq] at hnone
    simp only [reduceCtorEq, false_iff]
    exact fun ⟨r, hr, hmatch, _⟩ => hnone r hr hmatch
  | some r =>
    have hr := List.mem_of_find?_eq_some hfind
    have hmatch : w &&& r.mask = r.pat := by simpa only [beq_iff_eq] using List.find?_some hfind
    simp only [Except.ok.injEq]
    constructor
    · exact fun hi => ⟨r, hr, hmatch, hi⟩
    · rintro ⟨r', hr', hmatch', hi⟩
      rw [opcodeRow_unique hr hr' hmatch hmatch', hi]

/-- A word that matches no row is illegal (30_encoding.md R75, R76). -/
theorem decode_error_of_no_match {w : Word} (h : ∀ r ∈ opcodeRows, w &&& r.mask ≠ r.pat) :
    ∃ e, decode w = .error e := by
  cases hd : decode w with
  | error e => exact ⟨e, rfl⟩
  | ok i =>
    obtain ⟨r, hr, hmatch, _⟩ := decode_eq_ok_iff.1 hd
    exact absurd hmatch (h r hr)

/-- Settles O1: by `decode_eq_ok_iff`, since each command is built by one row only. -/
theorem wordIsACommandExactlyWhenItMatches : Obligations.WordIsACommandExactlyWhenItMatches := by
  unfold Obligations.WordIsACommandExactlyWhenItMatches
  intro w
  simp only [decode_eq_ok_iff]
  simp [opcodeRows]

/-! ### The illegal words -/

/-- The classes of R76: OPC is none of the seven codes, a reserved bit is set, or BUF or EIDX is set in a format that
does not use it. -/
def IllegalClass (w : Word) : Prop :=
  w &&& 0x000000FF#32 ∉ [0x00#32, 0x01#32, 0x02#32, 0x10#32, 0x11#32, 0x12#32, 0xFF#32] ∨
  w &&& 0xFFFF0E00#32 ≠ 0 ∨
  (w &&& 0x000000FF#32 ∈ [0x00#32, 0x01#32, 0x02#32, 0xFF#32] ∧ w &&& 0x0000F100#32 ≠ 0) ∨
  (w &&& 0x000000FF#32 ∈ [0x10#32, 0x11#32] ∧ w &&& 0x0000F000#32 ≠ 0)

theorem opcodeRows_opc_assigned : ∀ r ∈ opcodeRows,
    r.pat &&& 0x000000FF#32 ∈ [0x00#32, 0x01#32, 0x02#32, 0x10#32, 0x11#32, 0x12#32, 0xFF#32] := by decide

/-- Every row has 0 in the reserved bits 31:16 and 11:9. -/
theorem opcodeRows_reserved : ∀ r ∈ opcodeRows,
    r.mask &&& 0xFFFF0E00#32 = 0xFFFF0E00#32 ∧ r.pat &&& 0xFFFF0E00#32 = 0 := by decide

/-- Every row of format N has 0 in BUF and EIDX. -/
theorem opcodeRows_formatN : ∀ r ∈ opcodeRows,
    r.pat &&& 0x000000FF#32 ∈ [0x00#32, 0x01#32, 0x02#32, 0xFF#32] →
    r.mask &&& 0x0000F100#32 = 0x0000F100#32 ∧ r.pat &&& 0x0000F100#32 = 0 := by decide

/-- Every row of format B has 0 in EIDX. -/
theorem opcodeRows_formatB : ∀ r ∈ opcodeRows,
    r.pat &&& 0x000000FF#32 ∈ [0x10#32, 0x11#32] →
    r.mask &&& 0x0000F000#32 = 0x0000F000#32 ∧ r.pat &&& 0x0000F000#32 = 0 := by decide

/-- A word of a class of R76 differs from every row in a bit that the row's mask covers. -/
theorem no_match_of_illegalClass {w : Word} (hw : IllegalClass w) : ∀ r ∈ opcodeRows, w &&& r.mask ≠ r.pat := by
  intro r hr hmatch
  have hopc := and_eq_pat_and_of_match hmatch (opcodeRows_mask_opc r hr)
  have hzero : ∀ {k : Word}, r.mask &&& k = k ∧ r.pat &&& k = 0 → w &&& k = 0 :=
    fun ⟨hmask, hpat⟩ => (and_eq_pat_and_of_match hmatch hmask).trans hpat
  unfold IllegalClass at hw
  rw [hopc] at hw
  rcases hw with hunassigned | hreserved | ⟨hN, hset⟩ | ⟨hB, hset⟩
  · exact hunassigned (opcodeRows_opc_assigned r hr)
  · exact hreserved (hzero (opcodeRows_reserved r hr))
  · exact hset (hzero (opcodeRows_formatN r hr hN))
  · exact hset (hzero (opcodeRows_formatB r hr hB))

end Sys2Proof

namespace Sys2Proof.Machine

/-! ### The block's turn -/

theorem step_of_inputs_nil {s : State} (h : s.inputs = []) : step s = blockTurn s := by
  unfold step turn
  rw [h]

theorem step_of_inputs_blockTurn {s : State} {rest : List Input} (h : s.inputs = .blockTurn :: rest) :
    step s = blockTurn (popInput rest s) := by
  unfold step turn
  rw [h]
  rfl

/-- A WAIT gives a busy block its turn and stays pending (log 8). -/
theorem step_of_inputs_wait {s : State} {rest : List Input} (h : s.inputs = .wait :: rest) (hbusy : s.busy = true) :
    step s = blockTurn s := by
  unfold step turn
  rw [h]
  exact if_pos hbusy

/-- R161: an undecodable latched word faults, with the word in FINFO. -/
theorem blockTurn_of_decode_error {s : State} {e : DecodeError} (hbusy : s.busy = true) (hd : decode s.cmd = .error e) :
    blockTurn s = .next (raiseFault ⟨.illegalCmd, s.cmd⟩ s) := by
  unfold blockTurn runLatched
  rw [if_pos hbusy, hd]

/-- Settles O6: a word of either kind has no row, so its turn, wherever it comes, is the fault entry of R167. -/
theorem illegalWordsFault : Obligations.IllegalWordsFault := by
  unfold Obligations.IllegalWordsFault
  intro s hbusy hillegal
  have hrows : ∀ r ∈ opcodeRows, s.cmd &&& r.mask ≠ r.pat := by
    rcases hillegal with hnone | hclass
    · simpa [opcodeRows] using hnone
    · exact no_match_of_illegalClass hclass
  obtain ⟨e, hd⟩ := decode_error_of_no_match hrows
  refine ⟨fun hnil => ?_, fun rest hturn => ?_, fun rest hwait => ?_⟩
  · rw [step_of_inputs_nil hnil, blockTurn_of_decode_error hbusy hd]
    rfl
  · rw [step_of_inputs_blockTurn hturn, blockTurn_of_decode_error (s := popInput rest s) hbusy hd]
    rfl
  · rw [step_of_inputs_wait hwait hbusy, blockTurn_of_decode_error hbusy hd]
    rfl

end Sys2Proof.Machine

/-! PROOFS of the family 40_trig.md: the SINCOS command (R93, R95) and the laws of the pair (R94). The quadrant rows come
first; a quarter turn and a reflection then give every symmetry. -/

namespace Sys2Proof.Machine

/-! ### The extended lookup -/

theorem sineQ_of_lt (c : Config) {d : Nat} (hd : d < 90) : sineQ c d = (c.sinTab.getD d 0 : Nat) :=
  if_pos (by omega)

@[simp] theorem sineQ_ninety (c : Config) : sineQ c 90 = 16384 := rfl

/-- Where the scaled sine is an integer, at 0 and 30 degrees, the table has one legal entry (40_trig.md R90). -/
theorem sinTab_eq_sineFloor (c : Config) {d : Nat} (hd : d = 0 ∨ d = 30) : c.sinTab.getD d 0 = sineFloor.getD d 0 := by
  have h := sinTab_sineLegal c (d := d) (by omega)
  simp only [sineLegal, Bool.or_eq_true, Bool.and_eq_true, beq_iff_eq, bne_iff_ne] at h
  omega

@[simp] theorem sineQ_zero (c : Config) : sineQ c 0 = 0 := by
  rw [sineQ_of_lt c (by decide), sinTab_eq_sineFloor c (.inl rfl)]
  rfl

@[simp] theorem sineQ_thirty (c : Config) : sineQ c 30 = 8192 := by
  rw [sineQ_of_lt c (by decide), sinTab_eq_sineFloor c (.inr rfl)]
  rfl

/-! ### The quadrant rows

Neighbouring rows of R93 agree at their common end, since Q(0) = 0, so each holds up to and including it. -/

theorem quadrant_cases {a : Nat} (ha : a < 360) :
    a < 90 ∨ (90 ≤ a ∧ a < 180) ∨ (180 ≤ a ∧ a < 270) ∨ (270 ≤ a ∧ a < 360) := by omega

theorem sincos_first (c : Config) {a : Nat} (h : a ≤ 90) : sincos c a = (sineQ c a, sineQ c (90 - a)) := by
  rcases h.eq_or_lt with rfl | hlt
  · simp [sincos]
  · exact if_pos (by omega)

theorem sincos_second (c : Config) {a : Nat} (hlo : 90 ≤ a) (hhi : a ≤ 180) :
    sincos c a = (sineQ c (180 - a), -sineQ c (a - 90)) := by
  rcases hhi.eq_or_lt with rfl | hlt
  · simp [sincos]
  · rw [sincos, if_neg (by omega), if_pos (by omega)]

theorem sincos_third (c : Config) {a : Nat} (hlo : 180 ≤ a) (hhi : a ≤ 270) :
    sincos c a = (-sineQ c (a - 180), -sineQ c (270 - a)) := by
  rcases hhi.eq_or_lt with rfl | hlt
  · simp [sincos]
  · rw [sincos, if_neg (by omega), if_neg (by omega), if_pos (by omega)]

theorem sincos_fourth (c : Config) {a : Nat} (hlo : 270 ≤ a) :
    sincos c a = (-sineQ c (360 - a), sineQ c (a - 270)) := by
  rw [sincos, if_neg (by omega), if_neg (by omega), if_neg (by omega)]

/-! ### The SINCOS command -/

theorem exec_sincos_of_angle_lt {s : State} (h : s.angle.toNat < 360) :
    exec .sincos s = .next (complete (writeSincos (sincos s.cfg s.angle.toNat) s)) := by
  have hnone : angleFault s = none := by
    rcases angleFault_cases s with ⟨hge, _⟩ | ⟨_, hf⟩
    · omega
    · exact hf
  rcases execSincos_cases s with ⟨f, hf, _⟩ | ⟨_, he⟩
  · rw [hnone] at hf
    cases hf
  · exact he

/-- Settles O16: the command commits the pair of the lookup, and the clauses are the four rows. -/
theorem sincosWritesTheQuadrantPair : Obligations.SincosWritesTheQuadrantPair := by
  unfold Obligations.SincosWritesTheQuadrantPair
  intro s T hT hT90 hangle
  have hTQ : ∀ i ≤ 90, T i = sineQ s.cfg i := fun i hi => by
    rcases hi.eq_or_lt with rfl | hlt
    · exact hT90
    · rw [hT i hlt, sineQ_of_lt s.cfg hlt]
  obtain ⟨hsn, hcs⟩ := abs_sincos_le s.cfg s.angle.toNat
  refine ⟨_, _, exec_sincos_of_angle_lt hangle,
    abs_le.1 hsn, abs_le.1 hcs, fun hhi => ?_, fun hlo hhi => ?_, fun hlo hhi => ?_, fun hlo => ?_⟩
  · rw [sincos_first s.cfg (by omega), hTQ _ (by omega), hTQ _ (by omega)]
    simp only [and_self]
  · rw [sincos_second s.cfg hlo (by omega), hTQ _ (by omega), hTQ _ (by omega)]
    simp only [and_self]
  · rw [sincos_third s.cfg hlo (by omega), hTQ _ (by omega), hTQ _ (by omega)]
    simp only [and_self]
  · rw [sincos_fourth s.cfg hlo, hTQ _ (by omega), hTQ _ (by omega)]
    simp only [and_self]

/-! ### The symmetries -/

/-- 360 degrees is 0 degrees. -/
theorem sincos_mod (c : Config) {a : Nat} (h : a ≤ 360) : sincos c (a % 360) = sincos c a := by
  rcases h.eq_or_lt with rfl | hlt
  · simp [sincos]
  · rw [Nat.mod_eq_of_lt hlt]

/-- A quarter turn moves each row to the next: sin(a + 90°) = cos a and cos(a + 90°) = -sin a. -/
theorem sincos_quarterTurn (c : Config) {a : Nat} (ha : a < 360) :
    sincos c ((a + 90) % 360) = ((sincos c a).2, -(sincos c a).1) := by
  rcases quadrant_cases ha with h | ⟨hlo, hhi⟩ | ⟨hlo, hhi⟩ | ⟨hlo, hhi⟩
  · rw [sincos_mod c (by omega), sincos_second c (by omega) (by omega), sincos_first c h.le,
      show 180 - (a + 90) = 90 - a by omega, show a + 90 - 90 = a by omega]
  · rw [sincos_mod c (by omega), sincos_third c (by omega) (by omega), sincos_second c hlo hhi.le,
      show a + 90 - 180 = a - 90 by omega, show 270 - (a + 90) = 180 - a by omega]
  · rw [sincos_mod c (by omega), sincos_fourth c (by omega), sincos_third c hlo hhi.le,
      show 360 - (a + 90) = 270 - a by omega, show a + 90 - 270 = a - 180 by omega, neg_neg]
  · rw [show (a + 90) % 360 = a - 270 by omega, sincos_first c (by omega), sincos_fourth c hlo,
      show 90 - (a - 270) = 360 - a by omega, neg_neg]

theorem sincos_halfTurn (c : Config) {a : Nat} (ha : a < 360) :
    sincos c ((a + 180) % 360) = (-(sincos c a).1, -(sincos c a).2) := by
  rw [show (a + 180) % 360 = ((a + 90) % 360 + 90) % 360 by omega,
    sincos_quarterTurn c (by omega), sincos_quarterTurn c ha]

theorem sincos_threeQuarterTurn (c : Config) {a : Nat} (ha : a < 360) :
    sincos c ((a + 270) % 360) = (-(sincos c a).2, (sincos c a).1) := by
  rw [show (a + 270) % 360 = ((a + 180) % 360 + 90) % 360 by omega,
    sincos_quarterTurn c (by omega), sincos_halfTurn c ha, neg_neg]

/-- The sine is odd and the cosine even. -/
theorem sincos_reflect (c : Config) {a : Nat} (ha : a < 360) :
    sincos c ((360 - a) % 360) = (-(sincos c a).1, (sincos c a).2) := by
  rw [sincos_mod c (by omega)]
  rcases quadrant_cases ha with h | ⟨hlo, hhi⟩ | ⟨hlo, hhi⟩ | ⟨hlo, hhi⟩
  · rw [sincos_fourth c (by omega), sincos_first c h.le,
      show 360 - (360 - a) = a by omega, show 360 - a - 270 = 90 - a by omega]
  · rw [sincos_third c (by omega) (by omega), sincos_second c hlo hhi.le,
      show 360 - a - 180 = 180 - a by omega, show 270 - (360 - a) = a - 90 by omega]
  · rw [sincos_second c (by omega) (by omega), sincos_third c hlo hhi.le,
      show 180 - (360 - a) = a - 180 by omega, show 360 - a - 90 = 270 - a by omega, neg_neg]
  · rw [sincos_first c (by omega), sincos_fourth c hlo, show 90 - (360 - a) = a - 270 by omega, neg_neg]

/-! ### The exact values -/

theorem sincos_zero (c : Config) : sincos c 0 = (0, 16384) := by
  simp [sincos_first c (a := 0) (by decide)]

theorem sincos_thirty (c : Config) : sincos c 30 = (8192, sineQ c 60) := by
  simp [sincos_first c (a := 30) (by decide)]

/-! ### The deviation of sin² + cos² -/

/-- sin² + cos² - 2^28 at angle `a`. -/
def sineDeviation (c : Config) (a : Nat) : Int := (sincos c a).1 ^ 2 + (sincos c a).2 ^ 2 - 2 ^ 28

theorem sineDeviation_quarterTurn (c : Config) {a : Nat} (ha : a < 360) :
    sineDeviation c ((a + 90) % 360) = sineDeviation c a := by
  simp only [sineDeviation, sincos_quarterTurn c ha]
  ring

theorem sineDeviation_mod_ninety (c : Config) {a : Nat} (ha : a < 360) :
    sineDeviation c a = sineDeviation c (a % 90) := by
  induction a using Nat.strong_induction_on with
  | _ a ih =>
    rcases Nat.lt_or_ge a 90 with h | h
    · rw [Nat.mod_eq_of_lt h]
    · calc sineDeviation c a
          = sineDeviation c ((a - 90 + 90) % 360) := by rw [show (a - 90 + 90) % 360 = a by omega]
        _ = sineDeviation c (a - 90) := sineDeviation_quarterTurn c (by omega)
        _ = sineDeviation c ((a - 90) % 90) := ih (a - 90) (by omega) (by omega)
        _ = sineDeviation c (a % 90) := by rw [show (a - 90) % 90 = a % 90 by omega]

/-- R94's own evaluation of the reference table, over the first quadrant. -/
theorem sineDeviation_reference : ∀ d < 90,
    (sineDeviation configReference d).natAbs ≤ 16872 ∧
    ((sineDeviation configReference d).natAbs = 16872 ↔ d = 23 ∨ d = 67) := by decide

/-- Settles O18: the symmetries by turns and a reflection, the exact values as turns of those at 0 and 30, and the
deviation by its period of 90 degrees. -/
theorem sincosSymmetriesAndExactValues : Obligations.SincosSymmetriesAndExactValues := by
  unfold Obligations.SincosSymmetriesAndExactValues
  refine ⟨fun c a ha => ?_, fun c => ?_, fun a ha => ?_⟩
  · obtain ⟨hsn, hcs⟩ := abs_sincos_le c a
    rw [sincos_threeQuarterTurn c ha, sincos_halfTurn c ha, sincos_reflect c ha]
    exact ⟨abs_le.1 hsn, abs_le.1 hcs, rfl, rfl, rfl, rfl, rfl⟩
  · have hninety := sincos_quarterTurn c (a := 0) (by decide)
    have h180 := sincos_halfTurn c (a := 0) (by decide)
    have h270 := sincos_threeQuarterTurn c (a := 0) (by decide)
    have h210 := sincos_halfTurn c (a := 30) (by decide)
    have h330 := sincos_reflect c (a := 30) (by decide)
    have h150 := sincos_halfTurn c (a := 330) (by decide)
    simp only [sincos_zero, neg_zero, Nat.reduceAdd, Nat.reduceMod] at hninety h180 h270
    simp only [sincos_thirty, Nat.reduceAdd, Nat.reduceMod, Nat.reduceSub] at h210 h330
    simp only [h330, Nat.reduceAdd, Nat.reduceMod, neg_neg] at h150
    exact ⟨sincos_zero c, hninety, h180, h270, sineQ c 60, sineQ_of_lt c (by decide), sincos_thirty c, h150, h210, h330⟩
  · have hdev := sineDeviation_reference (a % 90) (Nat.mod_lt a (by decide))
    rw [← sineDeviation_mod_ninety configReference ha] at hdev
    refine ⟨hdev.1, hdev.2.trans ?_⟩
    simp only [List.mem_cons, List.not_mem_nil, or_false]
    omega

end Sys2Proof.Machine

/-! PROOFS of the family 41_transform.md: what XFORM commits (R103 to R107), and that nothing of the past enters it
(R113). -/

namespace Sys2Proof.Machine

/-! ### The vertices by their equations -/

/-- Arithmetic that satisfies the equations at a vertex of MODEL is the model's. -/
theorem eq_vertexWork_of_vertexRule {c : Config} {sn cs : Int} {i : Fin 8} {w : VertexWork}
    (h : VertexRule c sn cs (modelVertex c.cubeSize i.val) w) : w = vertexWork c sn cs (model c i) := by
  rw [modelVertex_eq] at h
  exact vertexRule_unique h

theorem overflowFault_none_of_stagePasses {c : Config} {sn cs : Int} {W : Fin 8 → VertexWork}
    (hrule : ∀ i : Fin 8, VertexRule c sn cs (modelVertex c.cubeSize i.val) (W i))
    (hpass : ∀ i : Fin 8, ∀ stage, 1 ≤ stage → stage ≤ 5 → stagePasses (W i) stage) :
    overflowFault c sn cs = none := by
  refine overflowFault_none_iff.2 fun i => ?_
  rw [← eq_vertexWork_of_vertexRule (hrule i)]
  exact failedStage_none_iff.2 (hpass i)

theorem transformed_eq_of_vertexRule {c : Config} {sn cs : Int} {W : Fin 8 → VertexWork}
    (hrule : ∀ i : Fin 8, VertexRule c sn cs (modelVertex c.cubeSize i.val) (W i)) :
    transformed c sn cs = Vector.ofFn fun i => projected (W i) := by
  have hW : W = fun i => vertexWork c sn cs (model c i) := funext fun i => eq_vertexWork_of_vertexRule (hrule i)
  rw [hW]
  rfl

/-! ### The XFORM command -/

/-- All that a completed XFORM writes, once the sine pair is known (41_transform.md R109). -/
theorem complete_commitXform {s : State} {sn cs : Int} (hpair : sincos s.cfg (angleOf s) = (sn, cs)) :
    complete (commitXform s) =
      { s with
        sin := toHalf sn, cos := toHalf cs, tp := transformed s.cfg sn cs, tpvalid := true, busy := false } := by
  rw [commitXform, hpair]
  rfl

theorem exec_xform_of_xformFault_some {s : State} {f : FaultRecord} (h : xformFault s = some f) :
    exec .xform s = .next (raiseFault f s) := by
  rcases execXform_cases s with ⟨g, hg, he⟩ | ⟨hnone, _⟩
  · rw [h] at hg
    cases hg
    exact he
  · rw [h] at hnone
    cases hnone

/-- Settles O19: no check fails, so XFORM commits, and the equations determine the vertices it commits. -/
theorem xformCommitsTheProjectedVertices : Obligations.XformCommitsTheProjectedVertices := by
  unfold Obligations.XformCommitsTheProjectedVertices
  intro s sn cs W hangle hpair hrule hpass
  have hpair' : sincos s.cfg (angleOf s) = (sn, cs) := hpair
  have hnone : xformFault s = none := by
    refine xformFault_none_iff.2 ⟨hangle, ?_⟩
    rw [hpair']
    exact overflowFault_none_of_stagePasses hrule hpass
  rw [exec_xform_of_xformFault_none hnone, complete_commitXform hpair', transformed_eq_of_vertexRule hrule]
  rfl

/-- What XFORM checks is a function of ANGLE and the configuration. -/
theorem xformFault_congr {s s' : State} (hcfg : s.cfg = s'.cfg) (hangle : s.angle = s'.angle) :
    xformFault s = xformFault s' := by
  have hrange : angleFault s = angleFault s' := by unfold angleFault angleOf; rw [hangle]
  unfold xformFault angleOf
  rw [hrange, hcfg, hangle]

/-- What XFORM commits is a function of ANGLE and the configuration. -/
theorem commitXform_congr {s s' : State} (hcfg : s.cfg = s'.cfg) (hangle : s.angle = s'.angle) :
    (commitXform s).sin = (commitXform s').sin ∧ (commitXform s).cos = (commitXform s').cos ∧
    (commitXform s).tp = (commitXform s').tp := by
  simp only [commitXform_sin, commitXform_cos, commitXform_tp, angleOf, hcfg, hangle, and_self]

/-- Settles O24: both runs find the same fault, or both find none and commit the same results. -/
theorem xformForgetsHistory : Obligations.XformForgetsHistory := by
  unfold Obligations.XformForgetsHistory
  intro s s' hcfg hangle
  have hsame := xformFault_congr hcfg hangle
  cases hfault : xformFault s with
  | some f =>
    have hfault' : xformFault s' = some f := hsame ▸ hfault
    exact ⟨_, _, exec_xform_of_xformFault_some hfault, exec_xform_of_xformFault_some hfault',
      .inr ⟨rfl, rfl, rfl, rfl, rfl, rfl, rfl, rfl⟩⟩
  | none =>
    have hfault' : xformFault s' = none := hsame ▸ hfault
    obtain ⟨hsin, hcos, htp⟩ := commitXform_congr hcfg hangle
    exact ⟨_, _, exec_xform_of_xformFault_none hfault, exec_xform_of_xformFault_none hfault',
      .inl ⟨hsin, hcos, htp, rfl, rfl, rfl, rfl⟩⟩

end Sys2Proof.Machine

/-! PROOFS of the family 42_raster.md: which pixels the three cases of drawLine list, and in what order. The closed form
of the error-term loop (R131) comes from one loop invariant, the value of the error term after each step. -/

namespace Sys2Proof.Machine

/-! ### The straight cases -/

theorem linePixels_vertical (x y0 y1 : Int) : linePixels (x, y0) (x, y1) = verticalPixels x y0 y1 := if_pos rfl

theorem linePixels_horizontal {x0 x1 : Int} (y : Int) (h : x0 ≠ x1) :
    linePixels (x0, y) (x1, y) = horizontalPixels y x0 x1 :=
  (if_neg h).trans (if_pos rfl)

theorem linePixels_general {p q : Pixel} (hx : p.1 ≠ q.1) (hy : p.2 ≠ q.2) : linePixels p q = generalPixels p q :=
  (if_neg hx).trans (if_neg hy)

theorem natAbs_sub_eq_toNat_max_sub_min (u v : Int) : (v - u).natAbs = (max u v - min u v).toNat := by omega

/-- Settles O30: a single point is the vertical case with both ends equal. -/
theorem straightSegmentsAscend : Obligations.StraightSegmentsAscend := by
  unfold Obligations.StraightSegmentsAscend
  refine ⟨fun x y0 y1 => ?vertical, fun x0 x1 y hne => ?horizontal, fun ⟨x, y⟩ => ?point⟩
  case vertical => rw [linePixels_vertical, verticalPixels, natAbs_sub_eq_toNat_max_sub_min]
  case horizontal => rw [linePixels_horizontal y hne, horizontalPixels, natAbs_sub_eq_toNat_max_sub_min]
  case point => rw [linePixels_vertical, verticalPixels]; simp

/-! ### The minor steps k(i) of R131 -/

/-- k(i) of R131: by how much the minor coordinate has moved at the i-th pixel. -/
def minorSteps (dx dy i : Int) : Int := -((-((i + 1) * dy)) / dx) - 1

theorem lt_minorSteps_iff {dx : Int} (hdx : 0 < dx) (dy i m : Int) :
    m < minorSteps dx dy i ↔ (m + 1) * dx < (i + 1) * dy :=
  calc m < minorSteps dx dy i
    _ ↔ (-((i + 1) * dy)) / dx < -(m + 1) := by unfold minorSteps; omega
    _ ↔ -((i + 1) * dy) < -(m + 1) * dx := Int.ediv_lt_iff_lt_mul hdx
    _ ↔ (m + 1) * dx < (i + 1) * dy := by rw [neg_mul, neg_lt_neg_iff]

theorem minorSteps_eq_iff {dx : Int} (hdx : 0 < dx) (dy i m : Int) :
    minorSteps dx dy i = m ↔ m * dx < (i + 1) * dy ∧ (i + 1) * dy ≤ (m + 1) * dx := by
  have hbelow := lt_minorSteps_iff hdx dy i (m - 1)
  have habove := lt_minorSteps_iff hdx dy i m
  rw [sub_add_cancel] at hbelow
  rw [← hbelow, ← not_lt, ← habove]
  omega

theorem minorSteps_first {dx dy : Int} (hdy : 1 ≤ dy) (hle : dy ≤ dx) : minorSteps dx dy 0 = 0 :=
  (minorSteps_eq_iff (by omega) dy 0 0).2 ⟨by omega, by omega⟩

theorem minorSteps_last {dx dy : Int} (hdy : 1 ≤ dy) (hle : dy ≤ dx) : minorSteps dx dy dx = dy :=
  (minorSteps_eq_iff (by omega) dy dx dy).2 ⟨by linarith, by linarith⟩

/-- Before the pixel floor(dx/dy) the whole of (i + 1)·dy still fits in one dx. -/
theorem minorSteps_eq_zero {dx dy i : Int} (hdx : 0 < dx) (hdy : 0 < dy) (h0 : 0 ≤ i) (hi : i < dx / dy) :
    minorSteps dx dy i = 0 := by
  have hfits : (i + 1) * dy ≤ dx := (Int.le_ediv_iff_mul_le hdy).1 hi
  have hpos : 0 < (i + 1) * dy := mul_pos (by omega) hdy
  exact (minorSteps_eq_iff hdx dy i 0).2 ⟨by omega, by omega⟩

theorem minorSteps_ediv_pos {dx dy : Int} (hdx : 0 < dx) (hdy : 0 < dy) : 0 < minorSteps dx dy (dx / dy) := by
  rw [lt_minorSteps_iff hdx, zero_add, one_mul]
  exact Int.lt_ediv_add_one_mul_self dx hdy

/-! ### The error-term loop -/

/-- The error term before the i-th pixel when the minor coordinate has moved m times: i decrements by 2·dy and m
replenishments by 2·dx from the start at 2·dx (42_raster.md R129). -/
def errorTerm (dx dy i m : Int) : Int := 2 * ((m + 1) * dx - i * dy)

theorem errorTerm_decrement (dx dy i m : Int) : errorTerm dx dy i m - 2 * dy = errorTerm dx dy (i + 1) m := by
  unfold errorTerm; ring

theorem errorTerm_replenish (dx dy i m : Int) : errorTerm dx dy i m + 2 * dx = errorTerm dx dy i (m + 1) := by
  unfold errorTerm; ring

theorem errorTerm_neg_iff (dx dy i m : Int) : errorTerm dx dy i m < 0 ↔ (m + 1) * dx < i * dy := by
  unfold errorTerm; omega

/-- What every step of the loop keeps: the error term is not negative, and m has not passed k(i). -/
def LoopInv (dx dy i m : Int) : Prop := i * dy ≤ (m + 1) * dx ∧ m * dx < (i + 1) * dy

theorem loopInv_minorSteps {dx dy : Int} (hdx : 0 < dx) (hdy : 0 < dy) (i : Int) :
    LoopInv dx dy (i + 1) (minorSteps dx dy i) := by
  obtain ⟨hlo, hhi⟩ := (minorSteps_eq_iff hdx dy i _).1 rfl
  exact ⟨hhi, by linarith⟩

/-- One step of the loop (42_raster.md R129): the update and the test bring the moves from m to k(i). -/
theorem errorLoop_succ {dx dy i m : Int} (hdx : 0 < dx) (hle : dy ≤ dx) (hinv : LoopInv dx dy i m)
    (ystep x y : Int) (n : Nat) :
    errorLoop dx dy ystep (n + 1) (errorTerm dx dy i m) x (y + ystep * m) =
      (x, y + ystep * minorSteps dx dy i) ::
        errorLoop dx dy ystep n (errorTerm dx dy (i + 1) (minorSteps dx dy i)) (x + 1)
          (y + ystep * minorSteps dx dy i) := by
  obtain ⟨hnonneg, hsmall⟩ := hinv
  rw [errorLoop, errorTerm_decrement, errorTerm_replenish]
  by_cases hmove : errorTerm dx dy (i + 1) m < 0
  · have hk : minorSteps dx dy i = m + 1 :=
      (minorSteps_eq_iff hdx dy i _).2 ⟨(errorTerm_neg_iff dx dy _ m).1 hmove, by linarith⟩
    rw [if_pos hmove, hk, mul_add, mul_one, add_assoc]
  · have hk : minorSteps dx dy i = m :=
      (minorSteps_eq_iff hdx dy i m).2 ⟨hsmall, not_lt.1 (mt (errorTerm_neg_iff dx dy _ m).2 hmove)⟩
    rw [if_neg hmove, hk]

/-- The rest of the loop from pixel i on. -/
theorem errorLoop_eq_map {dx dy : Int} (hdx : 0 < dx) (hdy : 0 < dy) (hle : dy ≤ dx) (ystep y : Int) :
    ∀ (n : Nat) (i m x : Int), LoopInv dx dy i m →
      errorLoop dx dy ystep n (errorTerm dx dy i m) x (y + ystep * m) =
        (List.range n).map fun (j : Nat) => (x + (j : Int), y + ystep * minorSteps dx dy (i + j)) := by
  intro n
  induction n with
  | zero => exact fun _ _ _ _ => rfl
  | succ n ih =>
    intro i m x hinv
    rw [errorLoop_succ hdx hle hinv, ih _ _ _ (loopInv_minorSteps hdx hdy i), List.range_succ_eq_map]
    simp [add_assoc, add_comm (1 : Int)]

/-- The whole loop, between ordered endpoints whose slope is between 0 and 1 in size. -/
theorem orderedPixels_eq_map {a b : Pixel} (hdx : 0 < b.1 - a.1) (hdy : 1 ≤ |b.2 - a.2|)
    (hle : |b.2 - a.2| ≤ b.1 - a.1) :
    orderedPixels a b = (List.range ((b.1 - a.1).toNat + 1)).map fun (i : Nat) =>
      (a.1 + (i : Int), a.2 + (if a.2 < b.2 then 1 else -1) * minorSteps (b.1 - a.1) |b.2 - a.2| i) := by
  have hstart : LoopInv (b.1 - a.1) |b.2 - a.2| 0 0 := ⟨by omega, by omega⟩
  have hloop := errorLoop_eq_map hdx hdy hle (if a.2 < b.2 then 1 else -1) a.2 ((b.1 - a.1).toNat + 1) 0 0 a.1 hstart
  simpa [orderedPixels, errorTerm] using hloop

/-! ### Transposition and order -/

theorem steep_iff {p q : Pixel} : steep p q = true ↔ |q.2 - p.2| > |q.1 - p.1| := by
  rw [steep, decide_eq_true_iff, gt_iff_lt, Int.abs_eq_natAbs, Int.abs_eq_natAbs, Int.ofNat_lt]

/-- After transposition the major distance is the larger one, and neither is 0 (42_raster.md R127). -/
theorem majorMinor_gaps {p q : Pixel} (hx : p.1 ≠ q.1) (hy : p.2 ≠ q.2) :
    1 ≤ |(majorMinor p q).2.2 - (majorMinor p q).1.2| ∧
    |(majorMinor p q).2.2 - (majorMinor p q).1.2| ≤ |(majorMinor p q).2.1 - (majorMinor p q).1.1| := by
  unfold majorMinor
  split_ifs with hs
  · have hsteep := steep_iff.1 hs
    exact ⟨Int.one_le_abs (sub_ne_zero.2 hx.symm), hsteep.le⟩
  · have hflat := mt steep_iff.2 hs
    exact ⟨Int.one_le_abs (sub_ne_zero.2 hy.symm), not_lt.1 hflat⟩

/-- Ordering changes neither distance and makes the major one positive (42_raster.md R128). -/
theorem ordered_gaps (pq : Pixel × Pixel) :
    (ordered pq).2.1 - (ordered pq).1.1 = |pq.2.1 - pq.1.1| ∧
    |(ordered pq).2.2 - (ordered pq).1.2| = |pq.2.2 - pq.1.2| := by
  unfold ordered
  split_ifs with hswap
  · exact ⟨((abs_of_neg (sub_neg.2 hswap)).trans (neg_sub _ _)).symm, abs_sub_comm _ _⟩
  · exact ⟨(abs_of_nonneg (sub_nonneg.2 (not_lt.1 hswap))).symm, rfl⟩

/-- `1 ≤ dy ≤ dx` in the general case (42_raster.md R128). -/
theorem ordered_majorMinor_gaps {p q a b : Pixel} (hx : p.1 ≠ q.1) (hy : p.2 ≠ q.2)
    (hab : (a, b) = ordered (majorMinor p q)) : 1 ≤ |b.2 - a.2| ∧ |b.2 - a.2| ≤ b.1 - a.1 := by
  obtain ⟨hmajor, hminor⟩ := ordered_gaps (majorMinor p q)
  rw [← hab] at hmajor hminor
  rw [hmajor, hminor]
  exact majorMinor_gaps hx hy

theorem generalPixels_eq {p q a b : Pixel} (hab : (a, b) = ordered (majorMinor p q)) :
    generalPixels p q = if steep p q then (orderedPixels a b).map transpose else orderedPixels a b := by
  unfold generalPixels
  rw [← hab]

/-- Settles O31: the loop invariant gives k(i) for every pixel, and the values of k are facts about the rounding. -/
theorem generalCaseClosedForm : Obligations.GeneralCaseClosedForm := by
  unfold Obligations.GeneralCaseClosedForm
  intro p q a b dx dy ystep k hx hy hab hdx hdy hystep hk
  obtain rfl : k = minorSteps dx dy := funext hk
  obtain ⟨hdy1, hle⟩ : 1 ≤ dy ∧ dy ≤ dx := hdx ▸ hdy ▸ ordered_majorMinor_gaps hx hy hab
  have hdx0 : 0 < dx := by omega
  refine ⟨?pixels, ⟨hdy1, hle⟩, minorSteps_first hdy1 hle, minorSteps_last hdy1 hle,
    fun i => minorSteps_eq_zero hdx0 hdy1, minorSteps_ediv_pos hdx0 hdy1⟩
  case pixels =>
    subst hdx hdy hystep
    rw [linePixels_general hx hy, generalPixels_eq hab, orderedPixels_eq_map hdx0 hdy1 hle]
    by_cases hs : steep p q = true
    · simp only [if_pos hs, if_pos (steep_iff.1 hs), List.map_map, Function.comp_def, transpose]
    · simp only [if_neg hs, if_neg (mt steep_iff.2 hs)]

end Sys2Proof.Machine

/-! PROOFS of the family 43_system.md: NOP and RESET (R140, R141), and what an access of the host to the register space
does and returns at every offset (R142 to R145, R149). The step of an access comes first, then the register map (R22),
then what a write stores and what a read returns. -/

namespace Sys2Proof.Machine

/-! ### NOP and RESET -/

theorem exec_nop (s : State) : exec .nop s = .next (complete s) := rfl

theorem exec_reset (s : State) : exec .reset s = .next (resetBlock s) := rfl

/-- Settles O15: NOP is completion alone. -/
theorem nopOnlyCompletes : Obligations.NopOnlyCompletes := by
  unfold Obligations.NopOnlyCompletes
  intro s
  rw [exec_nop]
  rfl

/-- Settles O49: RESET is the block's reset, whose free value of TP is the one thing left unsaid. -/
theorem resetCommandRestoresTheRegisters : Obligations.ResetCommandRestoresTheRegisters := by
  unfold Obligations.ResetCommandRestoresTheRegisters
  intro s
  refine ⟨(resetBlock s).tp, ?_⟩
  rw [exec_reset]
  rfl

/-! ### The step of a register access -/

theorem step_of_inputs_read {s : State} {off : Nat} {size : AccessSize} {rest : List Input}
    (h : s.inputs = .read off size :: rest) :
    step s = if accessDefined off size then .next (hostRead off (popInput rest s))
      else .refused (.undefinedAccess off size) := by
  unfold step turn
  rw [h]
  rfl

theorem step_of_inputs_write {s : State} {off : Nat} {size : AccessSize} {data : Word} {rest : List Input}
    (h : s.inputs = .write off size data :: rest) :
    step s = if accessDefined off size then .next (hostWrite off data (popInput rest s))
      else .refused (.undefinedAccess off size) := by
  unfold step turn
  rw [h]
  rfl

/-- Settles O11: such an access is not defined (R149), and the step of either kind asks exactly that. -/
theorem undefinedAccessesAreRefused : Obligations.UndefinedAccessesAreRefused := by
  unfold Obligations.UndefinedAccessesAreRefused
  intro s off size rest hbad
  have hundefined : ¬accessDefined off size = true := by
    rw [accessDefined_iff]
    rintro ⟨hsize, haligned, hnear⟩
    rcases hbad with hsize' | haligned' | hfar
    · exact hsize' hsize
    · exact haligned' haligned
    · omega
  refine ⟨fun hread => ?_, fun data hwrite => ?_⟩
  · rw [step_of_inputs_read hread, if_neg hundefined]
  · rw [step_of_inputs_write hwrite, if_neg hundefined]

/-! ### Writes -/

theorem acceptWrite_cmd_reset (s : State) : acceptWrite .cmd 0x000000FF#32 s = resetBlock s := by
  unfold acceptWrite
  exact if_pos rfl

theorem acceptWrite_cmd_issue {data : Word} (h : data ≠ 0x000000FF#32) (s : State) :
    acceptWrite .cmd data s = { s with cmd := data, busy := true } := if_neg h

/-- R143: a register that is not one of the eight writable ones ignores the word. -/
theorem acceptWrite_of_not_writable {r : RegName} (data : Word) (s : State)
    (h : r ∉ [.cmd, .angle, .p0x, .p0y, .p1x, .p1y, .fbbase0, .fbbase1]) : acceptWrite r data s = s := by
  cases r
  case cmd | angle | p0x | p0y | p1x | p1y | fbbase0 | fbbase1 => exact absurd (by decide) h
  all_goals rfl

/-- Settles O9: the write is discarded by R144, or taken by the register of its offset. -/
theorem hostWritesFollowTheRegisterMap : Obligations.HostWritesFollowTheRegisterMap := by
  unfold Obligations.HostWritesFollowTheRegisterMap
  intro s off data rest hin haligned hnear
  have hstep : step s = .next (hostWrite off data (popInput rest s)) := by
    rw [step_of_inputs_write hin, if_pos (accessDefined_iff.2 ⟨rfl, haligned, hnear⟩)]
  rw [hstep]
  rcases hostWrite_cases off data (popInput rest s) with ⟨hd, hw⟩ | ⟨hd, hw⟩
  · exact ⟨fun _ => congrArg _ hw, fun hkeep => absurd (writeDiscarded_iff.1 hd) hkeep⟩
  refine ⟨fun hdrop => absurd (writeDiscarded_iff.2 hdrop) (Bool.eq_false_iff.1 hd), fun _ => ?_⟩
  rw [hw]
  rcases eq_or_ne off 0x00 with rfl | hcmd
  · have hname : regAt 0x00 = .cmd := rfl
    rw [hname, if_pos rfl]
    by_cases hreset : data = 0x000000FF#32
    · rw [if_pos hreset, hreset, acceptWrite_cmd_reset, exec_reset]; rfl
    · rw [if_neg hreset, acceptWrite_cmd_issue hreset]; rfl
  rcases eq_or_ne off 0x0C with rfl | hangle
  · rfl
  rcases eq_or_ne off 0x18 with rfl | hp0x
  · rfl
  rcases eq_or_ne off 0x1C with rfl | hp0y
  · rfl
  rcases eq_or_ne off 0x20 with rfl | hp1x
  · rfl
  rcases eq_or_ne off 0x24 with rfl | hp1y
  · rfl
  rcases eq_or_ne off 0x28 with rfl | hfb0
  · rfl
  rcases eq_or_ne off 0x2C with rfl | hfb1
  · rfl
  have hreadOnly : regAt off ∉ [.cmd, .angle, .p0x, .p0y, .p1x, .p1y, .fbbase0, .fbbase1] := by
    simp only [List.mem_cons, List.not_mem_nil, regAt_eq_writable haligned, or_false, not_or]
    exact ⟨hcmd, hangle, hp0x, hp0y, hp1x, hp1y, hfb0, hfb1⟩
  rw [acceptWrite_of_not_writable data _ hreadOnly, if_neg hcmd, if_neg hangle, if_neg hp0x, if_neg hp0y, if_neg hp1x,
    if_neg hp1y, if_neg hfb0, if_neg hfb1]
  rfl

/-! ### Reads -/

theorem toInt_sext16 (h : Half) : (sext16 h).toInt = h.toInt := BitVec.toInt_signExtend_of_le (by decide)

/-- R24: the fields of STATUS stand at bits 0, 1, 2 and 7:4. -/
theorem statusWord_eq_ofNat (s : State) : statusWord s = BitVec.ofNat 32
    (s.busy.toNat + 2 * s.fault.toNat + 4 * s.tpvalid.toNat + 16 * (causeCode s.cause).toNat) := by
  have hfields : ∀ (code : BitVec 4) (tpvalid fault busy : Bool),
      (0#24 ++ code) ++ (0#1 ++ BitVec.ofBool tpvalid ++ BitVec.ofBool fault ++ BitVec.ofBool busy) =
        BitVec.ofNat 32 (busy.toNat + 2 * fault.toNat + 4 * tpvalid.toNat + 16 * code.toNat) := by decide
  exact hfields (causeCode s.cause) s.tpvalid s.fault s.busy

/-- R22: the three components of vertex i stand from 0x40 + 16·i. -/
theorem regAt_tp : ∀ i : Fin 8, regAt (0x40 + 16 * i.val) = .tp i .x ∧ regAt (0x44 + 16 * i.val) = .tp i .y ∧
    regAt (0x48 + 16 * i.val) = .tp i .z := by decide

/-- R39: the reserved words of the map. -/
theorem regAt_reserved {off : Nat} (h : (0x30 ≤ off ∧ off ≤ 0x3C) ∨ (∃ i < 8, off = 0x4C + 16 * i) ∨ 0xC0 ≤ off)
    (hnear : off < 0x100) : regAt off = .reserved := by
  have hmap : ∀ k < 64, (12 ≤ k ∧ k ≤ 15) ∨ (16 ≤ k ∧ k % 4 = 3) ∨ 48 ≤ k → regMap.getD k .reserved = .reserved := by
    decide
  refine hmap (off / 4) (by omega) ?_
  rcases h with hlow | ⟨i, hi, rfl⟩ | hhigh <;> omega

theorem readReg_tp {s : State} (h : s.tpvalid = true) (i : Fin 8) (c : Component) :
    readReg s (.tp i c) = sext16 (component s.tp[i] c) := if_pos h

/-- Settles O10: the step logs what `readReg` gives for the name of the offset in the map. -/
theorem hostReadsFollowTheRegisterMap : Obligations.HostReadsFollowTheRegisterMap := by
  unfold Obligations.HostReadsFollowTheRegisterMap
  intro s off rest hin haligned hnear
  refine ⟨readReg s (regAt off), (hostRead off (popInput rest s)).freeCtr, ?step, ?cmd, ?status, ?finfo, ?angle, ?sin,
    ?cos, ?p0x, ?p0y, ?p1x, ?p1y, ?fbbase0, ?fbbase1, ?tp, ?reserved⟩
  case step =>
    rw [step_of_inputs_read hin, if_pos (accessDefined_iff.2 ⟨rfl, haligned, hnear⟩)]
    rfl
  case status => rintro rfl; exact statusWord_eq_ofNat s
  case sin => rintro rfl; exact toInt_sext16 s.sin
  case cos => rintro rfl; exact toInt_sext16 s.cos
  case tp =>
    intro hvalid i
    obtain ⟨hx, hy, hz⟩ := regAt_tp i
    have hread : ∀ c, (readReg s (.tp i c)).toInt = (component s.tp[i] c).toInt := fun c => by
      rw [readReg_tp hvalid, toInt_sext16]
    refine ⟨?_, ?_, ?_⟩ <;> rintro rfl
    · rw [hx]; exact hread .x
    · rw [hy]; exact hread .y
    · rw [hz]; exact hread .z
  case reserved => exact fun h => congrArg (readReg s) (regAt_reserved h hnear)
  all_goals rintro rfl; rfl

end Sys2Proof.Machine

/-! PROOFS of the family 60_exceptions.md: which fault SINCOS and XFORM record (R162, R163), and that a step which faults
is fault entry and nothing more (R168). The order of R163 is settled by comparison: the model's failure is a first one
(`failedStage_some`, `overflowFault_some`), and there is only one first failure. -/

namespace Sys2Proof.Machine

/-! ### ANGLE_RANGE -/

theorem angleFault_of_le {s : State} (h : 360 ≤ s.angle.toNat) : angleFault s = some ⟨.angleRange, s.angle⟩ := by
  rcases angleFault_cases s with ⟨_, hf⟩ | ⟨hlt, _⟩
  · exact hf
  · omega

theorem exec_sincos_of_angleFault_some {s : State} {f : FaultRecord} (h : angleFault s = some f) :
    exec .sincos s = .next (raiseFault f s) := by
  rcases execSincos_cases s with ⟨g, hg, he⟩ | ⟨hnone, _⟩
  · rw [h] at hg
    cases hg
    exact he
  · rw [h] at hnone
    cases hnone

/-- R169: XFORM checks ANGLE before any vertex. -/
theorem xformFault_of_angleFault_some {s : State} {f : FaultRecord} (h : angleFault s = some f) :
    xformFault s = some f := by
  unfold xformFault
  rw [h]

/-- Settles O17: the check of ANGLE is the first of both commands, and its record is R162's. -/
theorem angleOutOfRangeFaults : Obligations.AngleOutOfRangeFaults := by
  unfold Obligations.AngleOutOfRangeFaults
  intro s hangle
  have hfault := angleFault_of_le hangle
  rw [exec_sincos_of_angleFault_some hfault, exec_xform_of_xformFault_some (xformFault_of_angleFault_some hfault)]
  exact ⟨rfl, rfl⟩

/-! ### ARITH_OVERFLOW -/

/-- The stage that fails after all lower stages pass is the one the model reports. -/
theorem failedStage_eq_some {w : VertexWork} {stage : Nat} (hlower : ∀ k, 1 ≤ k → k < stage → stagePasses w k)
    (h1 : 1 ≤ stage) (h5 : stage ≤ 5) (hfail : ¬stagePasses w stage) : failedStage w = some stage := by
  cases hmodel : failedStage w with
  | none => exact absurd (failedStage_none_iff.1 hmodel stage h1 h5) hfail
  | some k =>
    obtain ⟨hk1, _, hklower, hkfail⟩ := failedStage_some hmodel
    rcases Nat.lt_trichotomy k stage with hlt | rfl | hgt
    · exact absurd (hlower k hk1 hlt) hkfail
    · rfl
    · exact absurd (hklower stage h1 hgt) hfail

/-- The vertex that has a failed stage after all lower vertices have none is the one the model reports. -/
theorem overflowFault_eq_some {c : Config} {sn cs : Int} {i : Fin 8} {stage : Nat}
    (hlower : ∀ j < i, failedStage (vertexWork c sn cs (model c j)) = none)
    (hstage : failedStage (vertexWork c sn cs (model c i)) = some stage) :
    overflowFault c sn cs = some ⟨.arithOverflow, BitVec.ofNat 32 (i.val + 16 * stage)⟩ := by
  cases hmodel : overflowFault c sn cs with
  | none =>
    have hnone := overflowFault_none_iff.1 hmodel i
    rw [hstage] at hnone
    cases hnone
  | some f =>
    obtain ⟨j, k, hk, hjlower, rfl⟩ := overflowFault_some hmodel
    rcases lt_trichotomy j i with hlt | rfl | hgt
    · rw [hlower j hlt] at hk
      cases hk
    · rw [hstage] at hk
      cases hk
      rfl
    · have hnone := hjlower i hgt
      rw [hstage] at hnone
      cases hnone

theorem xformFault_of_angle_lt {s : State} (h : s.angle.toNat < 360) :
    xformFault s = overflowFault s.cfg (sincos s.cfg s.angle.toNat).1 (sincos s.cfg s.angle.toNat).2 := by
  rcases angleFault_cases s with ⟨hge, _⟩ | ⟨_, hnone⟩
  · omega
  · unfold xformFault
    rw [hnone]
    rfl

/-- Settles O20: the equations make W the model's vertices, so the first failing check of W is the one XFORM records. -/
theorem xformReportsTheFirstOverflow : Obligations.XformReportsTheFirstOverflow := by
  unfold Obligations.XformReportsTheFirstOverflow
  intro s sn cs W i stage hangle hpair hrule hvertices hstages h1 h5 hfail
  have hlower : ∀ j < i, failedStage (vertexWork s.cfg sn cs (model s.cfg j)) = none := fun j hj => by
    rw [← eq_vertexWork_of_vertexRule (hrule j)]
    exact failedStage_none_iff.2 (hvertices j hj)
  have hstage : failedStage (vertexWork s.cfg sn cs (model s.cfg i)) = some stage := by
    rw [← eq_vertexWork_of_vertexRule (hrule i)]
    exact failedStage_eq_some hstages h1 h5 hfail
  have hfault : xformFault s = some ⟨.arithOverflow, BitVec.ofNat 32 (i.val + 16 * stage)⟩ := by
    rw [xformFault_of_angle_lt hangle, hpair]
    exact overflowFault_eq_some hlower hstage
  rw [exec_xform_of_xformFault_some hfault]
  rfl

/-! ### Faults are precise -/

/-- A command that raises FAULT is its fault entry: every other way a command can end leaves FAULT or clears it. -/
theorem exec_raises_fault {i : Instr} {s t : State} (h : exec i s = .next t) (hs : s.fault = false)
    (ht : t.fault = true) : ∃ f, t = raiseFault f s := by
  have hkeep : t.fault ≠ s.fault := by rw [hs, ht]; decide
  rcases exec_cases h with ⟨_, hreset⟩ | ⟨_, hnop⟩ | ⟨_, _, hsincos⟩ | ⟨_, _, hxform⟩ | ⟨_, _, _, hdraw⟩ | ⟨f, hfault, _⟩
  · rw [hreset, resetBlock_fault] at ht
    cases ht
  · exact absurd (by rw [hnop, complete_fault]) hkeep
  · exact absurd (by rw [hsincos, complete_fault, writeSincos_fault]) hkeep
  · exact absurd (by rw [hxform, complete_fault, commitXform_fault]) hkeep
  · exact absurd (by rw [hdraw, complete_fault]) hkeep
  · exact ⟨f, hfault⟩

/-- A turn of the block that raises FAULT is fault entry, by the latched command or by an illegal word (R161). -/
theorem blockTurn_raises_fault {s t : State} (h : blockTurn s = .next t) (hs : s.fault = false)
    (ht : t.fault = true) : ∃ f, t = raiseFault f s := by
  rcases blockTurn_cases h with ⟨_, rfl⟩ | ⟨_, _, _, hexec⟩ | ⟨_, _, _, hillegal⟩
  · rw [hs] at ht
    cases ht
  · exact exec_raises_fault hexec hs ht
  · exact ⟨_, hillegal⟩

/-- Settles O42: only a turn of the block raises FAULT, and its fault entry writes the four fields of R167. -/
theorem faultsArePrecise : Obligations.FaultsArePrecise := by
  unfold Obligations.FaultsArePrecise
  intro s t hs hstep ht
  obtain ⟨_, u, hturn, rfl | ⟨rest, hinputs, rfl⟩⟩ := step_raises_fault hstep hs ht
  · obtain ⟨f, rfl⟩ := blockTurn_raises_fault hturn hs ht
    exact ⟨rfl, .inl rfl⟩
  · obtain ⟨f, rfl⟩ := blockTurn_raises_fault hturn hs ht
    exact ⟨rfl, .inr hinputs⟩

end Sys2Proof.Machine

/-! PROOFS of the two directions between commands and their words (30_encoding.md sections 1 and 2), and of the
operands as bit fields of a word that decodes. -/

namespace Sys2Proof

/-! ### The operand fields of a word -/

theorem fieldBuf_eq_fb1_iff (w : Word) : fieldBuf w = .fb1 ↔ w.getLsbD 8 = true := by
  unfold fieldBuf
  cases w.getLsbD 8 <;> decide

theorem fieldEidx_eq (w : Word) : fieldEidx w = w.toNat / 4096 % 16 := by
  rw [fieldEidx, BitVec.extractLsb'_toNat, Nat.shiftRight_eq_div_pow]

theorem fieldEidx_lt (w : Word) : fieldEidx w < 16 := (w.extractLsb' 12 4).isLt

/-- Bit 8 of a word is its BUF put back in place. -/
theorem and_bufMask (w : Word) : w &&& 0x00000100#32 = encodeBuf (fieldBuf w) := by
  have hbit : w &&& 0x00000100#32 = if w.getLsbD 8 then 0x00000100#32 else 0 := BitVec.and_twoPow w 8
  rw [hbit, fieldBuf]
  cases w.getLsbD 8 <;> rfl

theorem encodeEidx_toNat : ∀ x : BitVec 4, encodeEidx x.toNat = x.setWidth 32 <<< 12 := by decide

/-- Bits 15:12 of a word are its EIDX put back in place. -/
theorem and_eidxMask (w : Word) : w &&& 0x0000F000#32 = encodeEidx (fieldEidx w) := by
  have hmask : ∀ i < 32, (0x0000F000#32).getLsbD i = decide (12 ≤ i ∧ i < 16) := by decide
  rw [fieldEidx, encodeEidx_toNat]
  refine BitVec.eq_of_getLsbD_eq fun i hi => ?_
  rw [BitVec.getLsbD_and, hmask i hi, BitVec.getLsbD_shiftLeft, BitVec.getLsbD_setWidth, BitVec.getLsbD_extractLsb']
  by_cases hlow : 12 ≤ i
  · have hadd : 12 + (i - 12) = i := by omega
    by_cases hhigh : i < 16
    · simp [hlow, hhigh, hadd, hi, show i - 12 < 4 by omega, show ¬i < 12 by omega, show i - 12 < 32 by omega]
    · simp [hhigh, show ¬i - 12 < 4 by omega]
  · simp [hlow, show i < 12 by omega]

/-- A word is the bits that a mask covers together with those it does not. -/
theorem and_or_and_compl (w mask rest : Word) (h : mask ||| rest = 0xFFFFFFFF#32) :
    (w &&& mask) ||| (w &&& rest) = w := by
  rw [← BitVec.and_or_distrib_left, h]
  exact BitVec.and_allOnes

/-! ### The two directions -/

/-- Each of the 32 words of EDGE gives back its buffer and its index. -/
theorem decode_encode_edge (b : Buf) : ∀ e < 16, decode (encode (.edge b e)) = .ok (.edge b e) := by
  cases b <;> decide

/-- Settles O3, command by command; EDGE is the one whose operand is bounded by well-formedness. -/
theorem decodeInvertsEncode : Obligations.DecodeInvertsEncode := by
  unfold Obligations.DecodeInvertsEncode
  intro i hwf
  cases i with
  | nop | sincos | xform | reset => rfl
  | setpix b | line b => cases b <;> rfl
  | edge b e => exact decode_encode_edge b e (of_decide_eq_true hwf)

/-- What a row of the map builds from a matching word is well-formed, and its encoding is the word: the row's pattern
with the operand fields put back. -/
theorem encode_build_of_match : ∀ r ∈ opcodeRows, ∀ w : Word, w &&& r.mask = r.pat →
    (r.build w).wellFormed = true ∧ encode (r.build w) = w := by
  have hN : ∀ {w k : Word}, w &&& 0xFFFFFFFF#32 = k → k = w := fun h => h.symm.trans BitVec.and_allOnes
  have hB : ∀ {w k : Word}, w &&& 0xFFFFFEFF#32 = k → k ||| encodeBuf (fieldBuf w) = w := fun h => by
    rw [← h, ← and_bufMask]
    exact and_or_and_compl _ _ _ (by decide)
  have hE : ∀ {w k : Word}, w &&& 0xFFFF0EFF#32 = k →
      k ||| encodeBuf (fieldBuf w) ||| encodeEidx (fieldEidx w) = w := fun h => by
    rw [← h, ← and_bufMask, ← and_eidxMask, ← BitVec.and_or_distrib_left]
    exact and_or_and_compl _ _ _ (by decide)
  simp only [opcodeRows, List.forall_mem_cons]
  exact ⟨fun w h => ⟨rfl, hN h⟩, fun w h => ⟨rfl, hN h⟩, fun w h => ⟨rfl, hN h⟩, fun w h => ⟨rfl, hB h⟩,
    fun w h => ⟨rfl, hB h⟩, fun w h => ⟨decide_eq_true (fieldEidx_lt w), hE h⟩, fun w h => ⟨rfl, hN h⟩,
    fun _ h => nomatch h⟩

/-- Settles O4: a word that decodes matches a row, and a row loses no bit. -/
theorem encodeInvertsDecode : Obligations.EncodeInvertsDecode := by
  unfold Obligations.EncodeInvertsDecode
  intro w i hd
  obtain ⟨r, hr, hmatch, rfl⟩ := decode_eq_ok_iff.1 hd
  exact encode_build_of_match r hr w hmatch

/-- Settles O2: the row of each drawing command reads its operands from the fields. -/
theorem operandsAreTheirBitFields : Obligations.OperandsAreTheirBitFields := by
  unfold Obligations.OperandsAreTheirBitFields
  intro w b
  have hrows : ∀ {i}, decode w = .ok i → ∃ r ∈ opcodeRows, r.build w = i := fun hd => by
    obtain ⟨r, hr, _, hi⟩ := decode_eq_ok_iff.1 hd
    exact ⟨r, hr, hi⟩
  refine ⟨fun hd => ?_, fun hd => ?_, fun e hd => ?_⟩ <;> have hbuild := hrows hd <;>
    simp only [opcodeRows, List.mem_cons, List.not_mem_nil, or_false, exists_eq_or_imp, exists_eq_left, reduceCtorEq,
      Instr.setpix.injEq, Instr.line.injEq, Instr.edge.injEq, or_false, false_or] at hbuild
  · rw [← hbuild, fieldBuf_eq_fb1_iff]
  · rw [← hbuild, fieldBuf_eq_fb1_iff]
  · obtain ⟨hb, he⟩ := hbuild
    rw [← hb, ← he, fieldBuf_eq_fb1_iff]
    exact ⟨Iff.rfl, fieldEidx_eq w⟩

/-- Settles O5: nine lookups in the map. -/
theorem writtenWordsDecode : Obligations.WrittenWordsDecode := by
  unfold Obligations.WrittenWordsDecode
  exact ⟨rfl, rfl, rfl, rfl, rfl, rfl, rfl, rfl, rfl⟩

end Sys2Proof

/-! PROOFS about the turn of the block and the outcomes of a step (43_system.md section 3, 10_state.md sections 1, 2,
4 and 6): every command answers a next state and ends idle, and a step is the turn of the block or one access. -/

namespace Sys2Proof.Machine

/-! ### Commands -/

theorem exec_answers (i : Instr) (s : State) : ∃ t, exec i s = .next t := by
  cases i with
  | nop => exact ⟨_, exec_nop s⟩
  | sincos => rcases execSincos_cases s with ⟨_, _, h⟩ | ⟨_, h⟩ <;> exact ⟨_, h⟩
  | xform => rcases execXform_cases s with ⟨_, _, h⟩ | ⟨_, h⟩ <;> exact ⟨_, h⟩
  | setpix b | line b | edge b e => exact ⟨_, exec_of_drawPlan rfl⟩
  | reset => exact ⟨_, exec_reset s⟩

/-- A command leaves the block idle, and leaves alone what does not belong to the block. -/
theorem exec_frame {i : Instr} {s t : State} (h : exec i s = .next t) :
    t.busy = false ∧ t.inputs = s.inputs ∧ t.hostLog = s.hostLog ∧ t.cfg = s.cfg := by
  rcases exec_cases h with ⟨_, rfl⟩ | ⟨_, rfl⟩ | ⟨_, _, rfl⟩ | ⟨_, _, rfl⟩ | ⟨_, _, _, rfl⟩ | ⟨_, rfl, _⟩ <;>
    exact ⟨rfl, rfl, rfl, rfl⟩

/-- Settles O14: every way a command can end has BUSY = 0. -/
theorem everyCommandEndsWithBusyClear : Obligations.EveryCommandEndsWithBusyClear := by
  unfold Obligations.EveryCommandEndsWithBusyClear
  intro i s
  obtain ⟨t, ht⟩ := exec_answers i s
  exact ⟨t, ht, (exec_frame ht).1⟩

/-! ### The turn of the block -/

theorem blockTurn_idle {s : State} (h : s.busy = false) : blockTurn s = .next s := by
  unfold blockTurn
  rw [h]
  rfl

theorem blockTurn_of_decode_ok {s : State} {i : Instr} (hbusy : s.busy = true) (hd : decode s.cmd = .ok i) :
    blockTurn s = exec i s := by
  unfold blockTurn runLatched
  rw [if_pos hbusy, hd]

theorem blockTurn_answers (s : State) : ∃ t, blockTurn s = .next t := by
  cases hbusy : s.busy with
  | false => exact ⟨s, blockTurn_idle hbusy⟩
  | true =>
    cases hd : decode s.cmd with
    | ok i => rw [blockTurn_of_decode_ok hbusy hd]; exact exec_answers i s
    | error e => exact ⟨_, blockTurn_of_decode_error hbusy hd⟩

/-- A turn leaves the block idle, and leaves alone what does not belong to the block. -/
theorem blockTurn_frame {s t : State} (h : blockTurn s = .next t) :
    t.busy = false ∧ t.inputs = s.inputs ∧ t.hostLog = s.hostLog ∧ t.cfg = s.cfg := by
  rcases blockTurn_cases h with ⟨hidle, rfl⟩ | ⟨_, _, _, hexec⟩ | ⟨_, _, _, rfl⟩
  · exact ⟨hidle, rfl, rfl, rfl⟩
  · exact exec_frame hexec
  · exact ⟨rfl, rfl, rfl, rfl⟩

/-- Settles O7: each shape of the inputs gives the block its turn, and its turn is the command. -/
theorem stepRunsTheLatchedCommand : Obligations.StepRunsTheLatchedCommand := by
  unfold Obligations.StepRunsTheLatchedCommand
  intro s i hbusy hd
  refine ⟨fun hnil => ?_, fun rest hturn => ?_, fun rest hwait => ?_⟩
  · rw [step_of_inputs_nil hnil, blockTurn_of_decode_ok hbusy hd]
  · rw [step_of_inputs_blockTurn hturn, blockTurn_of_decode_ok (s := popInput rest s) hbusy hd]
    rfl
  · rw [step_of_inputs_wait hwait hbusy, blockTurn_of_decode_ok hbusy hd]

/-- Settles O8: with BUSY = 0 the turn is idle. -/
theorem idleBlockDoesNothing : Obligations.IdleBlockDoesNothing := by
  unfold Obligations.IdleBlockDoesNothing
  intro s hidle
  refine ⟨fun hnil => ?_, fun rest hturn => ?_⟩
  · rw [step_of_inputs_nil hnil, blockTurn_idle hidle]
  · rw [step_of_inputs_blockTurn hturn, blockTurn_idle (s := popInput rest s) hidle]
    rfl

/-! ### The step by its input -/

/-- The last poll of a WAIT. -/
theorem step_of_inputs_wait_idle {s : State} {rest : List Input} (h : s.inputs = .wait :: rest)
    (hidle : s.busy = false) : step s = .next (pollDone (popInput rest s)) := by
  unfold step turn
  rw [h]
  exact if_neg (Bool.eq_false_iff.1 hidle)

theorem step_of_inputs_memRead {s : State} {a : Word} {rest : List Input} (h : s.inputs = .memRead a :: rest) :
    step s = .next (foreignRead a (popInput rest s)) := by
  unfold step turn
  rw [h]
  rfl

theorem step_of_inputs_memWrite {s : State} {a : Word} {v : Byte} {rest : List Input}
    (h : s.inputs = .memWrite a v :: rest) : step s = .next (foreignWrite a v (popInput rest s)) := by
  unfold step turn
  rw [h]
  rfl

theorem step_of_inputs_hardwareReset {s : State} {rest : List Input} (h : s.inputs = .hardwareReset :: rest) :
    step s = .next (hardwareReset (popInput rest s)) := by
  unfold step turn
  rw [h]
  rfl

theorem accessDefined_false {off : Nat} {size : AccessSize} (h : ¬accessDefined off size = true) :
    size ≠ .word ∨ off % 4 ≠ 0 ∨ 0x100 ≤ off := by
  rw [accessDefined_iff] at h
  by_cases hsize : size = .word
  · by_cases haligned : off % 4 = 0
    · exact .inr (.inr (not_lt.1 fun hnear => h ⟨hsize, haligned, hnear⟩))
    · exact .inr (.inl haligned)
  · exact .inl hsize

/-- Settles O12: the turns of the block and the accesses to memory all answer, and a register access answers when it is
defined. -/
theorem onlyUndefinedAccessesStop : Obligations.OnlyUndefinedAccessesStop := by
  unfold Obligations.OnlyUndefinedAccessesStop
  intro s
  cases hi : s.inputs with
  | nil => exact .inl (step_of_inputs_nil hi ▸ blockTurn_answers s)
  | cons i rest =>
    cases i with
    | blockTurn => exact .inl (step_of_inputs_blockTurn hi ▸ blockTurn_answers (popInput rest s))
    | wait =>
      cases hbusy : s.busy with
      | true => exact .inl (step_of_inputs_wait hi hbusy ▸ blockTurn_answers s)
      | false => exact .inl ⟨_, step_of_inputs_wait_idle hi hbusy⟩
    | memRead a => exact .inl ⟨_, step_of_inputs_memRead hi⟩
    | memWrite a v => exact .inl ⟨_, step_of_inputs_memWrite hi⟩
    | hardwareReset => exact .inl ⟨_, step_of_inputs_hardwareReset hi⟩
    | read off size =>
      have hstep := step_of_inputs_read hi
      by_cases hdef : accessDefined off size = true
      · exact .inl ⟨_, hstep.trans (if_pos hdef)⟩
      · exact .inr ⟨off, size, rest, accessDefined_false hdef, hstep.trans (if_neg hdef), .inl rfl⟩
    | write off size data =>
      have hstep := step_of_inputs_write hi
      by_cases hdef : accessDefined off size = true
      · exact .inl ⟨_, hstep.trans (if_pos hdef)⟩
      · exact .inr ⟨off, size, rest, accessDefined_false hdef, hstep.trans (if_neg hdef), .inr ⟨data, rfl⟩⟩

/-! ### STATUS and the constant tables -/

/-- The fields of STATUS, over the 128 values that they can take together. -/
theorem statusFields : ∀ (code : BitVec 4) (tpvalid fault busy : Bool),
    let w := (0#24 ++ code) ++ (0#1 ++ BitVec.ofBool tpvalid ++ BitVec.ofBool fault ++ BitVec.ofBool busy)
    w.getLsbD 0 = busy ∧ w.getLsbD 1 = fault ∧ w.getLsbD 2 = tpvalid ∧ w.getLsbD 3 = false ∧
      w.extractLsb' 4 4 = code ∧ w.extractLsb' 8 24 = 0 := by decide

/-- Settles O41: STATUS is put together from the fields it shows. -/
theorem statusIsItsFields : Obligations.StatusIsItsFields := by
  unfold Obligations.StatusIsItsFields
  exact fun s => statusFields (causeCode s.cause) s.tpvalid s.fault s.busy

theorem statusWord_busy (s : State) : (statusWord s).getLsbD 0 = s.busy := (statusIsItsFields s).1

/-- CAUSE is bits 7:4 of STATUS. -/
theorem statusWord_cause (s : State) : (statusWord s).extractLsb' 4 4 = causeCode s.cause := by
  obtain ⟨_, _, _, _, hcause, _⟩ := statusIsItsFields s
  exact hcause

/-- Settles O13: the turn leaves the WAIT and the log alone and ends idle, so the next step is the last poll, which
reads BUSY = 0. -/
theorem waitEndsAfterTheCommand : Obligations.WaitEndsAfterTheCommand := by
  unfold Obligations.WaitEndsAfterTheCommand
  intro s rest hbusy hwait
  obtain ⟨t, ht⟩ := blockTurn_answers s
  obtain ⟨hidle, hinputs, hlog, _⟩ := blockTurn_frame ht
  have hwait' : t.inputs = .wait :: rest := hinputs.trans hwait
  refine ⟨t, pollDone (popInput rest t), statusWord t, (step_of_inputs_wait hwait hbusy).trans ht, hidle, hwait', hlog,
    step_of_inputs_wait_idle hwait' hidle, ?_, (statusWord_busy t).trans hidle⟩
  rw [← hlog]
  rfl

/-- Settles O29: the table as it stands, and the 64 pairs of vertices. -/
theorem edgeTableIsTheCube : Obligations.EdgeTableIsTheCube := by
  unfold Obligations.EdgeTableIsTheCube
  exact ⟨rfl, by decide⟩

/-- Settles O50: the reset state is written out in the model. -/
theorem resetStateIsTheTable : Obligations.ResetStateIsTheTable := by
  unfold Obligations.ResetStateIsTheTable
  exact ⟨rfl, rfl, rfl, rfl, rfl, rfl, rfl, rfl, rfl, rfl, rfl, rfl, rfl, rfl, rfl⟩

end Sys2Proof.Machine

/-! PROOFS about every step (10_state.md, 20_memory.md section 2, 60_exceptions.md section 4): the invariant and what
may change a register, TPVALID, memory and the configuration. A step is a turn of the block, a read or write of the
host, an access of another agent or a hardware reset; each of these is treated once. -/

namespace Sys2Proof.Machine

/-! ### The step by its agent -/

/-- In state `s` the step is the turn of the block, which leaves the inputs `l`: no input is pending, a WAIT stays
pending, or an explicit turn is taken. -/
def TurnLeaves (s : State) (l : List Input) : Prop :=
  (s.inputs = l ∧ (l = [] ∨ ∃ rest, l = .wait :: rest)) ∨ s.inputs = .blockTurn :: l

/-- The step by the agent that makes it. -/
theorem step_cases_by_agent {s t : State} (h : step s = .next t) :
    (∃ l, TurnLeaves s l ∧ blockTurn (popInput l s) = .next t) ∨
    (∃ l off, t = hostRead off (popInput l s) ∧
      ((∃ size, s.inputs = .read off size :: l) ∨ s.inputs = .wait :: l)) ∨
    (∃ l off data, s.inputs = .write off .word data :: l ∧ off % 4 = 0 ∧ t = hostWrite off data (popInput l s)) ∨
    (∃ l a, s.inputs = .memRead a :: l ∧ t = foreignRead a (popInput l s)) ∨
    (∃ l a v, s.inputs = .memWrite a v :: l ∧ t = foreignWrite a v (popInput l s)) ∨
    (∃ l, s.inputs = .hardwareReset :: l ∧ t = hardwareReset (popInput l s)) := by
  have hkeep : ∀ {l}, s.inputs = l → blockTurn s = .next t → blockTurn (popInput l s) = .next t := by
    rintro _ rfl hturn
    exact hturn
  rcases step_cases h with ⟨hi, hturn⟩ | ⟨l, hi, hturn⟩ | ⟨l, off, size, hi, _, rfl⟩ |
    ⟨l, off, size, data, hi, hdef, rfl⟩ | ⟨l, hi, _, hturn⟩ | ⟨l, hi, _, rfl⟩ | ⟨l, a, hi, rfl⟩ |
    ⟨l, a, v, hi, rfl⟩ | ⟨l, hi, rfl⟩
  · exact .inl ⟨[], .inl ⟨hi, .inl rfl⟩, hkeep hi hturn⟩
  · exact .inl ⟨l, .inr hi, hturn⟩
  · exact .inr (.inl ⟨l, off, rfl, .inl ⟨size, hi⟩⟩)
  · obtain ⟨rfl, haligned, _⟩ := accessDefined_iff.1 hdef
    exact .inr (.inr (.inl ⟨l, off, data, hi, haligned, rfl⟩))
  · exact .inl ⟨.wait :: l, .inl ⟨hi, .inr ⟨l, rfl⟩⟩, hkeep hi hturn⟩
  · exact .inr (.inl ⟨l, 0x04, rfl, .inr hi⟩)
  · exact .inr (.inr (.inr (.inl ⟨l, a, hi, rfl⟩)))
  · exact .inr (.inr (.inr (.inr (.inl ⟨l, a, v, hi, rfl⟩))))
  · exact .inr (.inr (.inr (.inr (.inr ⟨l, hi, rfl⟩))))

theorem flight_popInput (l : List Input) (s : State) : flight (popInput l s) = flight s := rfl

/-- The command in flight touches memory and the model's own progress fields only. -/
theorem advanceFlight_frame (s : State) :
    ∃ m d h n, advanceFlight s = { s with mem := m, drawn := d, held := h, freeCtr := n } := by
  rcases advanceFlight_cases s with ⟨_, he⟩ | ⟨_, _, _, _, _, he⟩ <;> rw [he] <;> exact ⟨_, _, _, _, rfl⟩

/-- A latched word in flight for memory is one of the three drawing commands. -/
theorem decode_of_flight {s : State} {base : Word} {ps : List Pixel} (h : flight s = some (base, ps)) :
    s.busy = true ∧ ∃ b, decode s.cmd = .ok (.setpix b) ∨ decode s.cmd = .ok (.line b) ∨
      ∃ e, decode s.cmd = .ok (.edge b e) := by
  obtain ⟨hbusy, i, b, hd, hplan, _⟩ := flight_some_iff.1 h
  refine ⟨hbusy, ?_⟩
  cases i with
  | setpix b => exact ⟨b, .inl hd⟩
  | line b => exact ⟨b, .inr (.inl hd)⟩
  | edge b e => exact ⟨b, .inr (.inr ⟨e, hd⟩)⟩
  | nop | sincos | xform | reset => cases hplan

/-- A latched word whose plan is no list of pixels has no flight. -/
theorem flight_eq_none {s : State} {i : Instr} (hd : decode s.cmd = .ok i)
    (hplan : ∀ b ps, drawPlan i s ≠ some (b, .ok ps)) : flight s = none := by
  cases hflight : flight s with
  | none => rfl
  | some bp =>
    obtain ⟨_, j, b, hj, hjplan, _⟩ := flight_some_iff.1 hflight
    rw [hd] at hj
    cases hj
    exact absurd hjplan (hplan b _)

theorem flight_eq_none_of_decode_error {s : State} {e : DecodeError} (hd : decode s.cmd = .error e) :
    flight s = none := by
  cases hflight : flight s with
  | none => rfl
  | some bp =>
    obtain ⟨_, j, b, hj, _⟩ := flight_some_iff.1 hflight
    rw [hd] at hj
    cases hj

theorem flightLength_of_flight_none {s : State} (h : flight s = none) : flightLength s = 0 := by
  unfold flightLength
  rw [h]

theorem flightLength_of_flight_some {s : State} {base : Word} {ps : List Pixel} (h : flight s = some (base, ps)) :
    flightLength s = ps.length := by
  unfold flightLength
  rw [h]

/-! ### What keeps the invariant -/

/-- Without a flight nothing is performed in part. -/
theorem Inv.nothing_in_flight {s : State} (h : Inv s) (hflight : flight s = none) : s.drawn = 0 ∧ s.held = none := by
  have hzero := flightLength_of_flight_none hflight
  have hdrawn := h.drawnBound
  have hheld := h.heldBound
  rw [hzero] at hdrawn hheld
  exact ⟨Nat.le_zero.1 hdrawn, by_contra fun hne => Nat.not_lt_zero _ (hheld hne)⟩

theorem Inv.fault_of_busy {s : State} (h : Inv s) (hbusy : s.busy = true) : s.fault = false :=
  Bool.eq_false_iff.2 fun hfault => h.notBoth ⟨hbusy, hfault⟩

theorem inv_popInput {s : State} (h : Inv s) (l : List Input) : Inv (popInput l s) :=
  ⟨h.memWf, h.notBoth, h.clean, h.recorded, h.sinRange, h.cosRange, h.notResetLatched, h.drawnBound, h.heldBound,
    h.tpIsTransformed⟩

theorem inv_hostRead {s : State} (h : Inv s) (off : Nat) : Inv (hostRead off s) :=
  ⟨h.memWf, h.notBoth, h.clean, h.recorded, h.sinRange, h.cosRange, h.notResetLatched, h.drawnBound, h.heldBound,
    h.tpIsTransformed⟩

/-- A reset makes the invariant true in any state of canonical memory. -/
theorem inv_resetBlock {s : State} (hmem : s.mem.wf = true) : Inv (resetBlock s) where
  memWf := hmem
  notBoth := by simp
  clean _ := ⟨rfl, rfl⟩
  recorded h := nomatch h
  sinRange := by simp
  cosRange := by simp
  notResetLatched h := nomatch h
  drawnBound := Nat.zero_le _
  heldBound h := absurd rfl h
  tpIsTransformed h := nomatch h

/-- Completion keeps the invariant once no call is performed in part. -/
theorem inv_complete {s : State} (h : Inv s) (hdrawn : s.drawn = 0) (hheld : s.held = none) : Inv (complete s) where
  memWf := h.memWf
  notBoth := by simp
  clean := h.clean
  recorded := h.recorded
  sinRange := h.sinRange
  cosRange := h.cosRange
  notResetLatched hbusy := nomatch hbusy
  drawnBound := by simp [hdrawn]
  heldBound hne := absurd hheld hne
  tpIsTransformed := h.tpIsTransformed

/-- Fault entry with a cause keeps the invariant, since a command that faults has performed no call. -/
theorem inv_raiseFault {s : State} {f : FaultRecord} (h : Inv s) (hflight : flight s = none)
    (hcause : f.cause ≠ .none) : Inv (raiseFault f s) := by
  obtain ⟨hdrawn, hheld⟩ := h.nothing_in_flight hflight
  exact {
    memWf := h.memWf
    notBoth := by simp
    clean := fun hclean => nomatch hclean
    recorded := fun _ => hcause
    sinRange := h.sinRange
    cosRange := h.cosRange
    notResetLatched := fun hbusy => nomatch hbusy
    drawnBound := by simp [hdrawn]
    heldBound := fun hne => absurd hheld hne
    tpIsTransformed := h.tpIsTransformed }

/-- The pair of the lookup is in the range of SIN and COS (10_state.md R27). -/
theorem toInt_toHalf_sincos (c : Config) (a : Nat) :
    (-16384 ≤ (toHalf (sincos c a).1).toInt ∧ (toHalf (sincos c a).1).toInt ≤ 16384) ∧
    (-16384 ≤ (toHalf (sincos c a).2).toInt ∧ (toHalf (sincos c a).2).toInt ≤ 16384) := by
  obtain ⟨hsin, hcos⟩ := abs_sincos_le c a
  rw [abs_le] at hsin hcos
  rw [toInt_toHalf (by omega), toInt_toHalf (by omega)]
  exact ⟨hsin, hcos⟩

theorem inv_writeSincos {s : State} (h : Inv s) (c : Config) (a : Nat) : Inv (writeSincos (sincos c a) s) :=
  ⟨h.memWf, h.notBoth, h.clean, h.recorded, (toInt_toHalf_sincos c a).1, (toInt_toHalf_sincos c a).2, h.notResetLatched,
    h.drawnBound, h.heldBound, h.tpIsTransformed⟩

/-- The commit of an XFORM without a fault keeps the invariant while XFORM is what is latched. -/
theorem inv_complete_commitXform {s : State} (h : Inv s) (hflight : flight s = none) (hnone : xformFault s = none) :
    Inv (complete (commitXform s)) := by
  obtain ⟨hangle, hoverflow⟩ := xformFault_none_iff.1 hnone
  have hsincos := inv_complete (inv_writeSincos h s.cfg (angleOf s)) (h.nothing_in_flight hflight).1
    (h.nothing_in_flight hflight).2
  exact { hsincos with tpIsTransformed := fun _ => ⟨angleOf s, hangle, hoverflow, rfl⟩ }

/-- The calls of a drawing command keep the invariant. -/
theorem inv_complete_drawn {s : State} (h : Inv s) (base : Word) (ps : List Pixel) :
    Inv (complete { s with mem := finishPixels base s.mem s.held ps, drawn := 0, held := none }) :=
  inv_complete
    ⟨finishPixels_wf h.memWf base s.held ps, h.notBoth, h.clean, h.recorded, h.sinRange, h.cosRange, h.notResetLatched,
      Nat.zero_le _, fun hne => absurd rfl hne, h.tpIsTransformed⟩ rfl rfl

/-! ### The fault records have a cause -/

theorem angleFault_some {s : State} {f : FaultRecord} (h : angleFault s = some f) :
    360 ≤ s.angle.toNat ∧ f = ⟨.angleRange, s.angle⟩ := by
  rcases angleFault_cases s with ⟨hangle, hf⟩ | ⟨_, hf⟩ <;> rw [hf] at h <;> cases h
  exact ⟨hangle, rfl⟩

theorem xformFault_cause {s : State} {f : FaultRecord} (h : xformFault s = some f) : f.cause ≠ .none := by
  rcases xformFault_some h with ⟨_, rfl⟩ | ⟨_, _, _, _, _, rfl⟩ <;> exact nofun

/-- The first endpoint off the screen is the one reported (42_raster.md R122). -/
theorem segmentPlan_error {p q : Pixel} {f : FaultRecord} (h : segmentPlan p q = .error f) :
    ∃ r, ¬OnScreen r ∧ f = coordFault r ∧ (r = p ∨ (OnScreen p ∧ r = q)) := by
  rcases segmentPlan_error_iff.1 h with ⟨hp, rfl⟩ | ⟨hp, hq, rfl⟩
  · exact ⟨p, fun hon => Bool.eq_false_iff.1 hp (onScreen_iff.2 hon), rfl, .inl rfl⟩
  · exact ⟨q, fun hon => Bool.eq_false_iff.1 hq (onScreen_iff.2 hon), rfl, .inr ⟨onScreen_iff.1 hp, rfl⟩⟩

theorem edgeTable_getElem? {e : Nat} (he : e < 12) :
    edgeTable.toList[e]? = some (edgeTable[e].1, edgeTable[e].2) := by
  rw [Vector.getElem?_toList, Vector.getElem?_eq_getElem he]

/-- The faults of a drawing command (60_exceptions.md R164 to R166, R169): a point off the screen, an edge index that
names no edge, or TP without TPVALID. -/
theorem drawPlan_error {i : Instr} {s : State} {b : Buf} {f : FaultRecord} (h : drawPlan i s = some (b, .error f)) :
    (∃ p, ¬OnScreen p ∧ f = coordFault p ∧
      ((i = .setpix b ∧ p = point0 s) ∨
       (i = .line b ∧ (p = point0 s ∨ (OnScreen (point0 s) ∧ p = point1 s))) ∨
       (∃ (e : Nat) (v w : Fin 8), i = .edge b e ∧ s.tpvalid = true ∧ edgeTable.toList[e]? = some (v, w) ∧
         (p = tpPoint s v ∨ (OnScreen (tpPoint s v) ∧ p = tpPoint s w))))) ∨
    (∃ e, i = .edge b e ∧ 12 ≤ e ∧ f = ⟨.edgeIndex, BitVec.ofNat 32 e⟩) ∨
    (∃ e, i = .edge b e ∧ e < 12 ∧ s.tpvalid = false ∧ f = ⟨.tpInvalid, 0⟩) := by
  cases i with
  | nop | sincos | xform | reset => cases h
  | setpix b' =>
    obtain ⟨rfl, hplan⟩ := Prod.mk.inj (Option.some.inj h)
    obtain ⟨hoff, rfl⟩ := setpixPlan_error_iff.1 hplan
    exact .inl ⟨point0 s, fun hon => Bool.eq_false_iff.1 hoff (onScreen_iff.2 hon), rfl, .inl ⟨rfl, rfl⟩⟩
  | line b' =>
    obtain ⟨rfl, hplan⟩ := Prod.mk.inj (Option.some.inj h)
    obtain ⟨p, hoff, rfl, hp⟩ := segmentPlan_error hplan
    exact .inl ⟨p, hoff, rfl, .inr (.inl ⟨rfl, hp⟩)⟩
  | edge b' e =>
    obtain ⟨rfl, hplan⟩ := Prod.mk.inj (Option.some.inj h)
    rcases edgePlan_error_iff.1 hplan with ⟨he, rfl⟩ | ⟨he, hvalid, rfl⟩ | ⟨hvalid, he, hseg⟩
    · exact .inr (.inl ⟨e, rfl, he, rfl⟩)
    · exact .inr (.inr ⟨e, rfl, he, hvalid, rfl⟩)
    · obtain ⟨p, hoff, rfl, hp⟩ := segmentPlan_error hseg
      exact .inl ⟨p, hoff, rfl, .inr (.inr ⟨e, _, _, rfl, hvalid, edgeTable_getElem? he, hp⟩)⟩

theorem drawPlan_cause {i : Instr} {s : State} {b : Buf} {f : FaultRecord} (h : drawPlan i s = some (b, .error f)) :
    f.cause ≠ .none := by
  rcases drawPlan_error h with ⟨_, _, rfl, _⟩ | ⟨_, _, _, rfl⟩ | ⟨_, _, _, _, rfl⟩ <;> exact nofun

/-! ### The invariant -/

theorem exec_inv {i : Instr} {s t : State} (h : Inv s) (hd : decode s.cmd = .ok i) (hexec : exec i s = .next t) :
    Inv t := by
  have hflight := flight_eq_none hd
  have hstop : flight s = none → Inv (complete s) := fun hnone =>
    inv_complete h (h.nothing_in_flight hnone).1 (h.nothing_in_flight hnone).2
  rcases exec_cases hexec with ⟨_, rfl⟩ | ⟨rfl, rfl⟩ | ⟨rfl, _, rfl⟩ | ⟨rfl, hnone, rfl⟩ | ⟨b, ps, _, rfl⟩ |
    ⟨f, rfl, ⟨rfl, hfault⟩ | ⟨rfl, hfault⟩ | ⟨b, hfault⟩⟩
  · exact inv_resetBlock h.memWf
  · exact hstop (hflight nofun)
  · obtain ⟨hdrawn, hheld⟩ := h.nothing_in_flight (hflight nofun)
    exact inv_complete (inv_writeSincos h _ _) hdrawn hheld
  · exact inv_complete_commitXform h (hflight nofun) hnone
  · exact inv_complete_drawn h _ _
  · exact inv_raiseFault h (hflight nofun) (by rw [(angleFault_some hfault).2]; exact nofun)
  · exact inv_raiseFault h (hflight nofun) (xformFault_cause hfault)
  · exact inv_raiseFault h (hflight fun b' ps => by rw [hfault]; exact nofun) (drawPlan_cause hfault)

theorem blockTurn_inv {s t : State} (h : Inv s) (hturn : blockTurn s = .next t) : Inv t := by
  rcases blockTurn_cases hturn with ⟨_, rfl⟩ | ⟨_, i, hd, hexec⟩ | ⟨_, e, hd, rfl⟩
  · exact h
  · exact exec_inv h hd hexec
  · exact inv_raiseFault h (flight_eq_none_of_decode_error hd) nofun

/-- A store to a register of an idle block: no flight depends on it. -/
theorem inv_hostWrite {s : State} (h : Inv s) (off : Nat) (data : Word) : Inv (hostWrite off data s) := by
  rcases hostWrite_cases off data s with ⟨_, he⟩ | ⟨hacc, he⟩
  · rwa [he]
  have hopen := mt writeDiscarded_iff.2 (Bool.eq_false_iff.1 hacc)
  have hidle : s.busy = false := Bool.eq_false_iff.2 fun hbusy => hopen (.inl hbusy)
  obtain ⟨hdrawn, hheld⟩ := h.nothing_in_flight (flight_idle hidle)
  have hbound : ∀ n, s.drawn ≤ n := fun n => hdrawn ▸ Nat.zero_le n
  have hfree : ∀ {P : Prop}, s.held ≠ none → P := fun hne => absurd hheld hne
  rw [he]
  rcases acceptWrite_cases (regAt off) data s with ⟨_, _, hw⟩ | ⟨_, hdata, hw⟩ | ⟨_, hw⟩ | ⟨_, hw⟩ | ⟨_, hw⟩ | ⟨_, hw⟩ |
    ⟨_, hw⟩ | ⟨_, hw⟩ | ⟨_, hw⟩ | hw <;> rw [hw]
  · exact inv_resetBlock h.memWf
  · have hfault : s.fault = false :=
      Bool.eq_false_iff.2 fun hfault => hopen (.inr ⟨hfault, fun hreset => hdata hreset.2⟩)
    exact ⟨h.memWf, fun hboth => Bool.eq_false_iff.1 hfault hboth.2, h.clean, h.recorded, h.sinRange, h.cosRange,
      fun _ => hdata, hbound _, fun hne => hfree hne, h.tpIsTransformed⟩
  iterate 7
    exact ⟨h.memWf, h.notBoth, h.clean, h.recorded, h.sinRange, h.cosRange, h.notResetLatched, hbound _,
      fun hne => hfree hne, h.tpIsTransformed⟩
  · exact h

theorem readNext_nil (base : Word) (m : Memory) (now : Bool) : readNext base m now [] = none := rfl

theorem inv_advanceBy {s : State} {base : Word} {ps : List Pixel} (h : Inv s) (hflight : flight s = some (base, ps))
    (k : Nat) (now : Bool) : Inv (advanceBy k now base ps s) := by
  have hlength : flightLength (advanceBy k now base ps s) = ps.length := flightLength_of_flight_some (s := s) hflight
  refine ⟨finishPixels_wf h.memWf base s.held _, h.notBoth, h.clean, h.recorded, h.sinRange, h.cosRange,
    h.notResetLatched, ?_, fun hne => ?_, h.tpIsTransformed⟩
  · rw [hlength]
    exact Nat.min_le_left _ _
  · have hheld := h.heldBound
    rw [flightLength_of_flight_some hflight] at hheld
    rw [hlength]
    simp only [advanceBy] at hne ⊢
    split at hne
    case isTrue hwait =>
      have := hheld hne
      omega
    case isFalse =>
      have hmore : ps.drop (s.drawn + k) ≠ [] := fun hnil => hne (by rw [hnil, readNext_nil])
      rw [Ne, List.drop_eq_nil_iff] at hmore
      omega

theorem inv_advanceFlight {s : State} (h : Inv s) : Inv (advanceFlight s) := by
  rcases advanceFlight_cases s with ⟨_, he⟩ | ⟨_, _, k, now, hflight, he⟩ <;> rw [he]
  · exact h
  · exact inv_advanceBy h hflight k now

theorem inv_foreignRead {s : State} (h : Inv s) (a : Word) : Inv (foreignRead a s) := by
  have h' := inv_advanceFlight h
  exact ⟨h'.memWf, h'.notBoth, h'.clean, h'.recorded, h'.sinRange, h'.cosRange, h'.notResetLatched, h'.drawnBound,
    h'.heldBound, h'.tpIsTransformed⟩

theorem inv_foreignWrite {s : State} (h : Inv s) (a : Word) (v : Byte) : Inv (foreignWrite a v s) := by
  have h' := inv_advanceFlight h
  exact ⟨Memory.wf_write h'.memWf a.isLt v, h'.notBoth, h'.clean, h'.recorded, h'.sinRange, h'.cosRange,
    h'.notResetLatched, h'.drawnBound, h'.heldBound, h'.tpIsTransformed⟩

/-- Settles O55, agent by agent. -/
theorem everyStepKeepsTheInvariant : Obligations.EveryStepKeepsTheInvariant := by
  unfold Obligations.EveryStepKeepsTheInvariant
  intro s t h hstep
  rcases step_cases_by_agent hstep with ⟨l, _, hturn⟩ | ⟨l, off, rfl, _⟩ | ⟨l, off, data, _, _, rfl⟩ | ⟨l, a, _, rfl⟩ |
    ⟨l, a, v, _, rfl⟩ | ⟨l, _, rfl⟩
  · exact blockTurn_inv (inv_popInput h l) hturn
  · exact inv_hostRead (inv_popInput h l) off
  · exact inv_hostWrite (inv_popInput h l) off data
  · exact inv_foreignRead (inv_popInput h l) a
  · exact inv_foreignWrite (inv_popInput h l) a v
  · exact inv_resetBlock (inv_advanceFlight (inv_popInput h l)).memWf

/-- Settles O54: with nothing recorded, latched or in flight, each field is a fact about zeros. -/
theorem resetStateSatisfiesTheInvariant : Obligations.ResetStateSatisfiesTheInvariant := by
  unfold Obligations.ResetStateSatisfiesTheInvariant
  exact {
    memWf := reset_mem_wf
    notBoth := by simp
    clean := fun _ => ⟨rfl, rfl⟩
    recorded := nofun
    sinRange := by simp
    cosRange := by simp
    notResetLatched := nofun
    drawnBound := Nat.zero_le _
    heldBound := fun hne => absurd rfl hne
    tpIsTransformed := nofun }

end Sys2Proof.Machine

/-! PROOFS of what may change what: the configuration, memory, the halted block, TPVALID and the registers
(10_state.md sections 2 and 3, 20_memory.md section 2, 60_exceptions.md), and the hardware reset
(70_reset_and_hazards.md section 1). -/

namespace Sys2Proof.Machine

/-! ### Accesses -/

theorem foreignRead_frame (a : Word) (s : State) :
    ∃ m d h n l, foreignRead a s = { s with mem := m, drawn := d, held := h, freeCtr := n, hostLog := l } := by
  obtain ⟨m, d, h, n, he⟩ := advanceFlight_frame s
  unfold foreignRead
  rw [he]
  exact ⟨m, d, h, n, _, rfl⟩

theorem foreignWrite_frame (a : Word) (v : Byte) (s : State) :
    ∃ m d h n, foreignWrite a v s = { s with mem := m, drawn := d, held := h, freeCtr := n } := by
  obtain ⟨m, d, h, n, he⟩ := advanceFlight_frame s
  unfold foreignWrite
  rw [he]
  exact ⟨_, d, h, n, rfl⟩

/-- A host write leaves memory and the configuration alone. -/
theorem hostWrite_mem_cfg (off : Nat) (data : Word) (s : State) :
    (hostWrite off data s).mem = s.mem ∧ (hostWrite off data s).cfg = s.cfg := by
  rcases hostWrite_cases off data s with ⟨_, he⟩ | ⟨_, he⟩ <;> rw [he]
  · exact ⟨rfl, rfl⟩
  · rcases acceptWrite_cases (regAt off) data s with ⟨_, _, hw⟩ | ⟨_, _, hw⟩ | ⟨_, hw⟩ | ⟨_, hw⟩ | ⟨_, hw⟩ | ⟨_, hw⟩ |
      ⟨_, hw⟩ | ⟨_, hw⟩ | ⟨_, hw⟩ | hw <;> rw [hw] <;> exact ⟨rfl, rfl⟩

theorem advanceFlight_cfg (s : State) : (advanceFlight s).cfg = s.cfg := by
  obtain ⟨_, _, _, _, he⟩ := advanceFlight_frame s
  rw [he]

/-- Settles O48, agent by agent. -/
theorem configurationNeverChanges : Obligations.ConfigurationNeverChanges := by
  unfold Obligations.ConfigurationNeverChanges
  intro s t hstep
  rcases step_cases_by_agent hstep with ⟨l, _, hturn⟩ | ⟨l, off, rfl, _⟩ | ⟨l, off, data, _, _, rfl⟩ | ⟨l, a, _, rfl⟩ |
    ⟨l, a, v, _, rfl⟩ | ⟨l, _, rfl⟩
  · obtain ⟨_, _, _, hcfg⟩ := blockTurn_frame hturn
    exact hcfg
  · rfl
  · exact (hostWrite_mem_cfg off data (popInput l s)).2
  · exact advanceFlight_cfg (popInput l s)
  · exact advanceFlight_cfg (popInput l s)
  · exact advanceFlight_cfg (popInput l s)

/-! ### Memory -/

/-- A command that draws nothing, or faults, leaves memory alone. -/
theorem exec_mem {i : Instr} {s t : State} (h : exec i s = .next t) :
    t.mem = s.mem ∨ ∃ b ps, drawPlan i s = some (b, .ok ps) := by
  rcases exec_cases h with ⟨_, rfl⟩ | ⟨_, rfl⟩ | ⟨_, _, rfl⟩ | ⟨_, _, rfl⟩ | ⟨b, ps, hplan, _⟩ | ⟨_, rfl, _⟩
  iterate 4 exact .inl rfl
  · exact .inr ⟨b, ps, hplan⟩
  · exact .inl rfl

/-- A turn changes memory only through the flight it finishes. -/
theorem blockTurn_mem {s t : State} (h : blockTurn s = .next t) : t.mem = s.mem ∨ flight s ≠ none := by
  rcases blockTurn_cases h with ⟨_, rfl⟩ | ⟨hbusy, i, hd, hexec⟩ | ⟨_, _, _, rfl⟩
  · exact .inl rfl
  · refine (exec_mem hexec).imp_right fun ⟨b, ps, hplan⟩ => ?_
    rw [flight_some_iff.2 ⟨hbusy, i, b, hd, hplan, rfl⟩]
    exact nofun
  · exact .inl rfl

theorem advanceFlight_mem (s : State) : (advanceFlight s).mem = s.mem ∨ flight s ≠ none := by
  rcases advanceFlight_cases s with ⟨_, he⟩ | ⟨_, _, _, _, hflight, _⟩
  · exact .inl (by rw [he])
  · exact .inr (by rw [hflight]; exact nofun)

/-- Settles O47: everyone but a foreign writer changes memory only through the command in flight. -/
theorem memoryChangesOnlyByDrawingOrOtherAgents : Obligations.MemoryChangesOnlyByDrawingOrOtherAgents := by
  unfold Obligations.MemoryChangesOnlyByDrawingOrOtherAgents
  intro s t hstep hne
  by_cases hflight : flight s = none
  case neg =>
    obtain ⟨⟨base, ps⟩, hsome⟩ := Option.ne_none_iff_exists'.1 hflight
    exact .inl (decode_of_flight hsome)
  case pos =>
    have hadvance : ∀ l, (advanceFlight (popInput l s)).mem = s.mem := fun l =>
      (advanceFlight_mem (popInput l s)).resolve_right (not_not_intro hflight)
    rcases step_cases_by_agent hstep with ⟨l, _, hturn⟩ | ⟨l, off, rfl, _⟩ | ⟨l, off, data, _, _, rfl⟩ |
      ⟨l, a, _, rfl⟩ | ⟨l, a, v, hinputs, rfl⟩ | ⟨l, _, rfl⟩
    · exact absurd ((blockTurn_mem hturn).resolve_right (not_not_intro hflight)) hne
    · exact absurd rfl hne
    · exact absurd (hostWrite_mem_cfg off data (popInput l s)).1 hne
    · exact absurd (hadvance l) hne
    · exact .inr ⟨a, v, l, hinputs⟩
    · exact absurd (hadvance l) hne

/-! ### The halted block -/

/-- Settles O44: a halted block is idle and discards every write but the RESET word. -/
theorem onlyResetLeavesTheFaultState : Obligations.OnlyResetLeavesTheFaultState := by
  unfold Obligations.OnlyResetLeavesTheFaultState
  intro s t hfault hidle hstep
  rcases step_cases_by_agent hstep with ⟨l, _, hturn⟩ | ⟨l, off, rfl, _⟩ | ⟨l, off, data, hinputs, _, rfl⟩ |
    ⟨l, a, _, rfl⟩ | ⟨l, a, v, hinputs, rfl⟩ | ⟨l, hinputs, rfl⟩
  · rw [blockTurn_idle (s := popInput l s) hidle] at hturn
    cases hturn
    exact .inr (.inr ⟨rfl, .inl rfl⟩)
  · exact .inr (.inr ⟨rfl, .inl rfl⟩)
  · by_cases hreset : off = 0 ∧ data = 0x000000FF#32
    · obtain ⟨rfl, rfl⟩ := hreset
      exact .inr (.inl ⟨l, hinputs⟩)
    · have hdiscarded : writeDiscarded off data (popInput l s) = true := writeDiscarded_iff.2 (.inr ⟨hfault, hreset⟩)
      have hsame : hostWrite off data (popInput l s) = popInput l s := if_pos hdiscarded
      rw [hsame]
      exact .inr (.inr ⟨rfl, .inl rfl⟩)
  · unfold foreignRead
    rw [advanceFlight_idle (s := popInput l s) hidle]
    exact .inr (.inr ⟨rfl, .inl rfl⟩)
  · unfold foreignWrite
    rw [advanceFlight_idle (s := popInput l s) hidle]
    exact .inr (.inr ⟨rfl, .inr ⟨a, v, l, hinputs⟩⟩)
  · exact .inl ⟨l, hinputs⟩

/-! ### The writers of each register -/

/-- What a step without a reset does to the registers and STATUS: each field stays as it is, or its writer moves. -/
structure RegisterEffect (s t : State) : Prop where
  sincos : (t.sin = s.sin ∧ t.cos = s.cos) ∨
    (s.busy = true ∧ (decode s.cmd = .ok .sincos ∨ decode s.cmd = .ok .xform)) := by exact .inl ⟨rfl, rfl⟩
  tp : (t.tp = s.tp ∧ t.tpvalid = s.tpvalid) ∨
    (s.busy = true ∧ decode s.cmd = .ok .xform ∧ t.tpvalid = true ∧ t.fault = s.fault ∧ t.busy = false) := by
      exact .inl ⟨rfl, rfl⟩
  cmd : t.cmd = s.cmd ∨ ∃ rest, s.inputs = .write 0x00 .word t.cmd :: rest := by exact .inl rfl
  angle : t.angle = s.angle ∨ ∃ rest, s.inputs = .write 0x0C .word t.angle :: rest := by exact .inl rfl
  p0x : t.p0x = s.p0x ∨ ∃ rest, s.inputs = .write 0x18 .word t.p0x :: rest := by exact .inl rfl
  p0y : t.p0y = s.p0y ∨ ∃ rest, s.inputs = .write 0x1C .word t.p0y :: rest := by exact .inl rfl
  p1x : t.p1x = s.p1x ∨ ∃ rest, s.inputs = .write 0x20 .word t.p1x :: rest := by exact .inl rfl
  p1y : t.p1y = s.p1y ∨ ∃ rest, s.inputs = .write 0x24 .word t.p1y :: rest := by exact .inl rfl
  fbbase0 : t.fbbase0 = s.fbbase0 ∨ ∃ rest, s.inputs = .write 0x28 .word t.fbbase0 :: rest := by exact .inl rfl
  fbbase1 : t.fbbase1 = s.fbbase1 ∨ ∃ rest, s.inputs = .write 0x2C .word t.fbbase1 :: rest := by exact .inl rfl
  fault : (t.fault = s.fault ∧ t.cause = s.cause ∧ t.finfo = s.finfo) ∨
    (s.busy = true ∧ s.fault = false ∧ t.fault = true ∧ t.busy = false) := by exact .inl ⟨rfl, rfl, rfl⟩
  busy : t.busy = s.busy ∨
    (t.busy = true ∧ s.fault = false ∧ ∃ rest, s.inputs = .write 0x00 .word t.cmd :: rest) ∨
    (t.busy = false ∧ (s.inputs = [] ∨ (∃ rest, s.inputs = .blockTurn :: rest) ∨ ∃ rest, s.inputs = .wait :: rest)) :=
      by exact .inl rfl

/-- The RESET word is not latched in a state that satisfies the invariant, so the block never executes it. -/
theorem Inv.not_decode_reset {s : State} (h : Inv s) (hbusy : s.busy = true) : decode s.cmd ≠ .ok .reset := fun hd =>
  h.notResetLatched hbusy (encodeInvertsDecode s.cmd .reset hd).2.symm

theorem TurnLeaves.inputs_cases {s : State} {l : List Input} (h : TurnLeaves s l) :
    s.inputs = [] ∨ (∃ rest, s.inputs = .blockTurn :: rest) ∨ ∃ rest, s.inputs = .wait :: rest := by
  rcases h with ⟨hi, rfl | ⟨rest, rfl⟩⟩ | hi
  · exact .inl hi
  · exact .inr (.inr ⟨rest, hi⟩)
  · exact .inr (.inl ⟨l, hi⟩)

theorem blockTurn_registerEffect {s t : State} {l : List Input} (h : Inv s) (hleaves : TurnLeaves s l)
    (hturn : blockTurn (popInput l s) = .next t) : RegisterEffect s t := by
  have hinputs := hleaves.inputs_cases
  have hraise : ∀ f, s.busy = true → RegisterEffect s (raiseFault f (popInput l s)) := fun f hbusy => {
    fault := .inr ⟨hbusy, h.fault_of_busy hbusy, rfl, rfl⟩
    busy := .inr (.inr ⟨rfl, hinputs⟩) }
  rcases blockTurn_cases hturn with ⟨_, rfl⟩ | ⟨hbusy, i, hd, hexec⟩ | ⟨hbusy, _, _, rfl⟩
  case inl => exact {}
  case inr.inr => exact hraise _ hbusy
  rcases exec_cases hexec with ⟨rfl, _⟩ | ⟨_, rfl⟩ | ⟨rfl, _, rfl⟩ | ⟨rfl, _, rfl⟩ | ⟨_, _, _, rfl⟩ | ⟨f, rfl, _⟩
  · exact absurd hd (h.not_decode_reset hbusy)
  · exact { busy := .inr (.inr ⟨rfl, hinputs⟩) }
  · exact { sincos := .inr ⟨hbusy, .inl hd⟩, busy := .inr (.inr ⟨rfl, hinputs⟩) }
  · exact {
      sincos := .inr ⟨hbusy, .inr hd⟩
      tp := .inr ⟨hbusy, hd, rfl, rfl, rfl⟩
      busy := .inr (.inr ⟨rfl, hinputs⟩) }
  · exact { busy := .inr (.inr ⟨rfl, hinputs⟩) }
  · exact hraise f hbusy

/-- A host write is a reset, or stores its word at the register of its offset. -/
theorem hostWrite_registerEffect {s : State} {l : List Input} {off : Nat} {data : Word}
    (hinputs : s.inputs = .write off .word data :: l) (haligned : off % 4 = 0) :
    (s.busy = false ∧ off = 0x00 ∧ data = 0x000000FF#32 ∧
      hostWrite off data (popInput l s) = resetBlock (popInput l s)) ∨
    RegisterEffect s (hostWrite off data (popInput l s)) := by
  rcases hostWrite_cases off data (popInput l s) with ⟨_, he⟩ | ⟨hacc, he⟩
  · rw [he]
    exact .inr {}
  have hopen := mt writeDiscarded_iff.2 (Bool.eq_false_iff.1 hacc)
  have hidle : s.busy = false := Bool.eq_false_iff.2 fun hbusy => hopen (.inl hbusy)
  obtain ⟨hcmd, hangle, hp0x, hp0y, hp1x, hp1y, hfb0, hfb1⟩ := regAt_eq_writable haligned
  have hat : ∀ {n}, off = n → ∃ rest, s.inputs = .write n .word data :: rest := fun h => ⟨l, h ▸ hinputs⟩
  rw [he]
  rcases acceptWrite_cases (regAt off) data (popInput l s) with ⟨hr, hdata, hw⟩ | ⟨hr, hdata, hw⟩ | ⟨hr, hw⟩ |
    ⟨hr, hw⟩ | ⟨hr, hw⟩ | ⟨hr, hw⟩ | ⟨hr, hw⟩ | ⟨hr, hw⟩ | ⟨hr, hw⟩ | hw <;> rw [hw]
  · exact .inl ⟨hidle, hcmd.1 hr, hdata, rfl⟩
  · have hfault : s.fault = false :=
      Bool.eq_false_iff.2 fun hfault => hopen (.inr ⟨hfault, fun hreset => hdata hreset.2⟩)
    exact .inr { cmd := .inr (hat (hcmd.1 hr)), busy := .inr (.inl ⟨rfl, hfault, hat (hcmd.1 hr)⟩) }
  · exact .inr { angle := .inr (hat (hangle.1 hr)) }
  · exact .inr { p0x := .inr (hat (hp0x.1 hr)) }
  · exact .inr { p0y := .inr (hat (hp0y.1 hr)) }
  · exact .inr { p1x := .inr (hat (hp1x.1 hr)) }
  · exact .inr { p1y := .inr (hat (hp1y.1 hr)) }
  · exact .inr { fbbase0 := .inr (hat (hfb0.1 hr)) }
  · exact .inr { fbbase1 := .inr (hat (hfb1.1 hr)) }
  · exact .inr {}

/-- Every step is a reset, by the hardware or by the host of an idle block, or leaves each register to its writers. -/
theorem step_registerEffect {s t : State} (h : Inv s) (hstep : step s = .next t) :
    ((∃ u, t = resetBlock u) ∧ ((∃ rest, s.inputs = .hardwareReset :: rest) ∨
      (s.busy = false ∧ ∃ rest, s.inputs = .write 0x00 .word 0x000000FF#32 :: rest))) ∨ RegisterEffect s t := by
  rcases step_cases_by_agent hstep with ⟨l, hleaves, hturn⟩ | ⟨l, off, rfl, _⟩ |
    ⟨l, off, data, hinputs, haligned, rfl⟩ | ⟨l, a, _, rfl⟩ | ⟨l, a, v, _, rfl⟩ | ⟨l, hinputs, rfl⟩
  · exact .inr (blockTurn_registerEffect h hleaves hturn)
  · exact .inr {}
  · rcases hostWrite_registerEffect hinputs haligned with ⟨hidle, rfl, rfl, he⟩ | heffect
    · exact .inl ⟨⟨_, he⟩, .inr ⟨hidle, l, hinputs⟩⟩
    · exact .inr heffect
  · obtain ⟨_, _, _, _, _, he⟩ := foreignRead_frame a (popInput l s)
    rw [he]
    exact .inr {}
  · obtain ⟨_, _, _, _, he⟩ := foreignWrite_frame a v (popInput l s)
    rw [he]
    exact .inr {}
  · exact .inl ⟨⟨_, rfl⟩, .inl ⟨l, hinputs⟩⟩

/-- Settles O45: a reset clears TPVALID, and any other step leaves it to XFORM. -/
theorem tpvalidRisesByXformAndFallsByReset : Obligations.TpvalidRisesByXformAndFallsByReset := by
  unfold Obligations.TpvalidRisesByXformAndFallsByReset
  intro s t h hstep
  refine ⟨fun hlow hhigh => ?_, fun hhigh hlow => ?_⟩
  · rcases step_registerEffect h hstep with ⟨⟨u, rfl⟩, _⟩ | heffect
    · cases hhigh
    · rcases heffect.tp with ⟨_, hsame⟩ | ⟨hbusy, hd, _, hfault, hdone⟩
      · exact absurd (hhigh.symm.trans (hsame.trans hlow)) (by decide)
      · exact ⟨hbusy, hd, hfault, hdone⟩
  · rcases step_registerEffect h hstep with ⟨_, hreset⟩ | heffect
    · exact hreset
    · rcases heffect.tp with ⟨_, hsame⟩ | ⟨_, _, hset, _⟩
      · exact absurd (hlow.symm.trans (hsame.trans hhigh)) (by decide)
      · exact absurd (hlow.symm.trans hset) (by decide)

/-- Settles O46: a field that has changed is one that its writer has moved. -/
theorem registersChangeOnlyByTheirWriters : Obligations.RegistersChangeOnlyByTheirWriters := by
  unfold Obligations.RegistersChangeOnlyByTheirWriters
  intro s t h hstep hnoHardware hnoHost
  have heffect : RegisterEffect s t := by
    rcases step_registerEffect h hstep with ⟨_, ⟨rest, hi⟩ | ⟨_, rest, hi⟩⟩ | heffect
    · exact absurd hi (hnoHardware rest)
    · exact absurd hi (hnoHost rest)
    · exact heffect
  refine ⟨fun hne => ?_, fun hne => ?_, heffect.cmd.resolve_left, heffect.angle.resolve_left, heffect.p0x.resolve_left,
    heffect.p0y.resolve_left, heffect.p1x.resolve_left, heffect.p1y.resolve_left, heffect.fbbase0.resolve_left,
    heffect.fbbase1.resolve_left, fun hne => ?_, fun hne => ?_, heffect.busy.resolve_left⟩
  · refine heffect.sincos.resolve_left fun ⟨hsin, hcos⟩ => ?_
    exact hne.elim (absurd hsin) (absurd hcos)
  · rcases heffect.tp with ⟨hsame, _⟩ | ⟨hbusy, hd, _⟩
    · exact absurd hsame hne
    · exact ⟨hbusy, hd⟩
  · rcases heffect.tp with ⟨_, hsame⟩ | ⟨hbusy, hd, hset, _⟩
    · exact absurd hsame hne
    · exact ⟨hset, hbusy, hd⟩
  · refine heffect.fault.resolve_left fun ⟨hfault, hcause, hfinfo⟩ => ?_
    rcases hne with hne | hne | hne
    · exact hne hfault
    · exact hne hcause
    · exact hne hfinfo

/-! ### The causes -/

/-- XFORM's overflow in the terms of its equations: the first vertex, and in it the first stage, that does not pass. -/
theorem overflowFault_rule {c : Config} {sn cs : Int} {f : FaultRecord} (h : overflowFault c sn cs = some f) :
    ∃ (W : Fin 8 → VertexWork) (i : Fin 8) (stage : Nat),
      (∀ j, VertexRule c sn cs (modelVertex c.cubeSize j.val) (W j)) ∧
      (∀ j < i, ∀ k, 1 ≤ k → k ≤ 5 → stagePasses (W j) k) ∧ (∀ k, 1 ≤ k → k < stage → stagePasses (W i) k) ∧
      1 ≤ stage ∧ stage ≤ 5 ∧ ¬stagePasses (W i) stage ∧
      f = ⟨.arithOverflow, BitVec.ofNat 32 (i.val + 16 * stage)⟩ := by
  obtain ⟨i, stage, hstage, hlower, rfl⟩ := overflowFault_some h
  obtain ⟨h1, h5, hpass, hfail⟩ := failedStage_some hstage
  refine ⟨fun j => vertexWork c sn cs (model c j), i, stage, fun j => ?_,
    fun j hj => failedStage_none_iff.1 (hlower j hj), hpass, h1, h5, hfail, rfl⟩
  rw [modelVertex_eq]
  exact vertexWork_rule c sn cs (model c j)

/-- Settles O43: the turn that raises the fault ran an illegal word or a command, and each command has its own rows. -/
theorem faultCausesAreComplete : Obligations.FaultCausesAreComplete := by
  unfold Obligations.FaultCausesAreComplete
  intro s t hs hstep ht
  obtain ⟨hbusy, u, hturn, hu⟩ := step_raises_fault hstep hs ht
  obtain ⟨l, rfl⟩ : ∃ l, u = popInput l s := by
    rcases hu with hu | ⟨l, _, hu⟩
    · exact ⟨s.inputs, hu⟩
    · exact ⟨l, hu⟩
  refine ⟨hbusy, ?_⟩
  rw [statusWord_cause]
  rcases blockTurn_cases hturn with ⟨hidle, _⟩ | ⟨_, i, hd, hexec⟩ | ⟨_, e, hd, rfl⟩
  · exact absurd (hbusy.symm.trans hidle) (by decide)
  · have hkeep : t.fault ≠ s.fault := by rw [hs, ht]; decide
    rcases exec_cases hexec with ⟨_, rfl⟩ | ⟨_, rfl⟩ | ⟨_, _, rfl⟩ | ⟨_, _, rfl⟩ | ⟨_, _, _, rfl⟩ | ⟨f, rfl, hcause⟩
    · cases ht
    iterate 4 exact absurd rfl hkeep
    rcases hcause with ⟨rfl, hf⟩ | ⟨rfl, hf⟩ | ⟨b, hplan⟩
    · obtain ⟨hangle, rfl⟩ := angleFault_some hf
      exact .inr (.inl ⟨rfl, .inl hd, hangle, rfl⟩)
    · rcases Nat.lt_or_ge s.angle.toNat 360 with hangle | hangle
      · rw [xformFault_of_angle_lt (s := popInput l s) hangle] at hf
        obtain ⟨W, v, stage, hrule, hlower, hpass, h1, h5, hfail, rfl⟩ := overflowFault_rule hf
        exact .inr (.inr (.inl ⟨rfl, hd, hangle, W, v, stage, hrule, hlower, hpass, h1, h5, hfail, rfl⟩))
      · rw [xformFault_of_angleFault_some (angleFault_of_le (s := popInput l s) hangle)] at hf
        cases hf
        exact .inr (.inl ⟨rfl, .inr hd, hangle, rfl⟩)
    · rcases drawPlan_error hplan with ⟨p, hoff, rfl, hp⟩ | ⟨e, rfl, he, rfl⟩ | ⟨e, rfl, he, hvalid, rfl⟩
      · refine .inr (.inr (.inr (.inl ⟨rfl, p, hoff, rfl, ?_⟩)))
        rcases hp with ⟨rfl, hp⟩ | ⟨rfl, hp⟩ | ⟨e, v, w, rfl, hp⟩
        · exact .inl ⟨b, hd, hp⟩
        · exact .inr (.inl ⟨b, hd, hp⟩)
        · exact .inr (.inr ⟨b, e, v, w, hd, hp⟩)
      · exact .inr (.inr (.inr (.inr (.inl ⟨rfl, b, e, hd, he, rfl⟩))))
      · exact .inr (.inr (.inr (.inr (.inr ⟨rfl, ⟨b, e, hd, he⟩, hvalid, rfl⟩))))
  · refine .inl ⟨rfl, fun i hi => ?_, rfl⟩
    cases hd.symm.trans hi

/-! ### The hardware reset -/

/-- Settles O51: the reset of the registers, after some further calls of the command in flight. -/
theorem hardwareResetLeavesAFirstPartOfTheDrawing : Obligations.HardwareResetLeavesAFirstPartOfTheDrawing := by
  unfold Obligations.HardwareResetLeavesAFirstPartOfTheDrawing
  intro s rest hinputs
  have hstep := step_of_inputs_hardwareReset hinputs
  unfold hardwareReset at hstep
  rcases advanceFlight_cases (popInput rest s) with ⟨hnone, he⟩ | ⟨base, ps, k, now, hflight, he⟩ <;> rw [he] at hstep
  · refine ⟨_, _, s.mem, hstep, fun _ => rfl, fun base ps hsome => ?_⟩
    rw [flight_popInput] at hnone
    rw [hnone] at hsome
    cases hsome
  · rw [flight_popInput] at hflight
    refine ⟨_, _, finishPixels base s.mem s.held ((ps.drop s.drawn).take k), hstep, fun hnone => ?_,
      fun base' ps' hsome => ⟨k, ?_⟩⟩
    · rw [hflight] at hnone
      cases hnone
    · rw [hflight] at hsome
      cases hsome
      rfl

end Sys2Proof.Machine

/-! PROOFS about the pixels of a line (42_raster.md section 3): endpoints, connection, box, length, direction and
mirrors. Every line is a walk whose major coordinate moves by one each time and whose minor coordinate follows it; the
straight cases and the transposed ones are such walks too, so what is asked of a line is proved of a walk. -/

namespace Sys2Proof.Machine

/-! ### Walks -/

theorem natAbs_sub_swap (u v : Int) : (u - v).natAbs = (v - u).natAbs := by omega

/-- The pixels `f 0` to `f n` lead from one of the points p and q to the other, in the box of the two, by moves to
neighbours, without a repeat, in as many moves as the larger distance. -/
structure Walk (p q : Pixel) (f : Nat → Pixel) (n : Nat) : Prop where
  ends : (f 0 = p ∧ f n = q) ∨ (f 0 = q ∧ f n = p)
  near : ∀ k < n, |(f (k + 1)).1 - (f k).1| ≤ 1 ∧ |(f (k + 1)).2 - (f k).2| ≤ 1
  inBox : ∀ k ≤ n, (min p.1 q.1 ≤ (f k).1 ∧ (f k).1 ≤ max p.1 q.1) ∧ (min p.2 q.2 ≤ (f k).2 ∧ (f k).2 ≤ max p.2 q.2)
  inj : ∀ j k, f j = f k → j = k
  moves : n = max (q.1 - p.1).natAbs (q.2 - p.2).natAbs

theorem Walk.swap {p q : Pixel} {f : Nat → Pixel} {n : Nat} (h : Walk p q f n) : Walk q p f n where
  ends := h.ends.symm
  near := h.near
  inBox k hk := by rw [min_comm, max_comm, min_comm q.2, max_comm q.2]; exact h.inBox k hk
  inj := h.inj
  moves := by rw [natAbs_sub_swap, natAbs_sub_swap p.2]; exact h.moves

@[simp] theorem transpose_transpose (p : Pixel) : transpose (transpose p) = p := rfl

theorem transpose_injective : Function.Injective transpose :=
  Function.LeftInverse.injective transpose_transpose

theorem Walk.transposed {p q : Pixel} {f : Nat → Pixel} {n : Nat} (h : Walk p q f n) :
    Walk (transpose p) (transpose q) (transpose ∘ f) n where
  ends := h.ends.imp (fun ⟨h0, hn⟩ => ⟨congrArg transpose h0, congrArg transpose hn⟩)
    (fun ⟨h0, hn⟩ => ⟨congrArg transpose h0, congrArg transpose hn⟩)
  near k hk := (h.near k hk).symm
  inBox k hk := (h.inBox k hk).symm
  inj j k hjk := h.inj j k (transpose_injective hjk)
  moves := h.moves.trans (max_comm _ _)

/-- A minor coordinate that starts at 0 and never moves by more than one stays between 0 and its last value. -/
theorem unitSteps_bounds {m : Nat → Int} (h0 : m 0 = 0) (hstep : ∀ k, m k ≤ m (k + 1) ∧ m (k + 1) ≤ m k + 1)
    {k n : Nat} (hk : k ≤ n) : 0 ≤ m k ∧ m k ≤ m n := by
  have hmono : Monotone m := monotone_nat_of_le_succ fun k => (hstep k).1
  exact ⟨h0 ▸ hmono (Nat.zero_le k), hmono hk⟩

/-- A walk along the major axis, from `a` up to `b`, whose minor coordinate has moved `m k` times after k moves. -/
theorem walk_of_unitSteps {a b : Pixel} {m : Nat → Int} {ystep : Int} {n : Nat} (h0 : m 0 = 0)
    (hstep : ∀ k, m k ≤ m (k + 1) ∧ m (k + 1) ≤ m k + 1) (hsign : ystep = 1 ∨ ystep = -1)
    (hn : b.1 = a.1 + n) (hlast : b.2 = a.2 + ystep * m n) (hle : m n ≤ n) :
    Walk a b (fun k => (a.1 + (k : Int), a.2 + ystep * m k)) n where
  ends := .inl ⟨by simp [h0], by rw [← hn, ← hlast]⟩
  near k _ := by
    have := hstep k
    simp only [abs_le]
    rcases hsign with rfl | rfl <;> push_cast <;> omega
  inBox k hk := by
    have := unitSteps_bounds h0 hstep hk
    simp only [hlast]
    rcases hsign with rfl | rfl <;> omega
  inj j k hjk := by
    have := congrArg Prod.fst hjk
    simp only at this
    omega
  moves := by
    have := unitSteps_bounds h0 hstep (le_refl n)
    rcases hsign with rfl | rfl <;> omega

/-! ### Every line is a walk -/

theorem minorSteps_unitSteps {dx dy : Int} (hdx : 0 < dx) (hdy : 0 < dy) (hle : dy ≤ dx) (i : Int) :
    minorSteps dx dy i ≤ minorSteps dx dy (i + 1) ∧ minorSteps dx dy (i + 1) ≤ minorSteps dx dy i + 1 := by
  obtain ⟨hlo, hhi⟩ := (minorSteps_eq_iff hdx dy i _).1 rfl
  have hnext : minorSteps dx dy i - 1 < minorSteps dx dy (i + 1) := (lt_minorSteps_iff hdx dy _ _).2 (by linarith)
  have hfar : ¬minorSteps dx dy i + 1 < minorSteps dx dy (i + 1) := fun h => by
    have := (lt_minorSteps_iff hdx dy _ _).1 h
    linarith
  omega

theorem horizontalPixels_walk (y x0 x1 : Int) :
    Walk (x0, y) (x1, y) (fun (k : Nat) => (min x0 x1 + (k : Int), y)) (x1 - x0).natAbs := by
  have hup : ∀ {u v : Int}, u ≤ v → Walk (u, y) (v, y) (fun (k : Nat) => (u + (k : Int), y)) (v - u).natAbs := by
    intro u v huv
    have hwalk := walk_of_unitSteps (a := (u, y)) (b := (v, y)) (m := fun _ => 0) (ystep := 1) (n := (v - u).natAbs) rfl
      (fun _ => by omega) (.inl rfl) (by simp only; omega) (by simp) (by omega)
    simpa using hwalk
  rcases le_total x0 x1 with h | h
  · rw [min_eq_left h]
    exact hup h
  · rw [min_eq_right h, natAbs_sub_swap]
    exact (hup h).swap

theorem verticalPixels_eq_map_transpose (x y0 y1 : Int) :
    verticalPixels x y0 y1 = (horizontalPixels x y0 y1).map transpose := by
  simp [verticalPixels, horizontalPixels, transpose, Function.comp_def]

theorem orderedPixels_walk {a b : Pixel} (hdy : 1 ≤ |b.2 - a.2|) (hle : |b.2 - a.2| ≤ b.1 - a.1) :
    ∃ f n, Walk a b f n ∧ orderedPixels a b = (List.range (n + 1)).map f := by
  have hdx : 0 < b.1 - a.1 := by omega
  have hn : ((b.1 - a.1).toNat : Int) = b.1 - a.1 := Int.toNat_of_nonneg hdx.le
  refine ⟨_, _, walk_of_unitSteps (minorSteps_first hdy hle) (fun k => ?_) ?_ ?_ ?_ ?_,
    orderedPixels_eq_map hdx hdy hle⟩
  · exact_mod_cast minorSteps_unitSteps hdx hdy hle k
  · exact ite_eq_or_eq _ _ _
  · omega
  · rw [hn, minorSteps_last hdy hle]
    split_ifs with h
    · rw [abs_of_pos (by omega)]
      ring
    · rw [abs_of_nonpos (by omega)]
      ring
  · rw [hn, minorSteps_last hdy hle]
    exact hle

theorem Walk.of_ordered {pq : Pixel × Pixel} {f : Nat → Pixel} {n : Nat}
    (h : Walk (ordered pq).1 (ordered pq).2 f n) : Walk pq.1 pq.2 f n := by
  unfold ordered at h
  split_ifs at h
  · exact h.swap
  · exact h

/-- The pixels of a line are those of a walk between its endpoints. -/
theorem linePixels_walk (p q : Pixel) : ∃ f n, Walk p q f n ∧ linePixels p q = (List.range (n + 1)).map f := by
  unfold linePixels
  split_ifs with hx hy
  · refine ⟨_, _, ?_, (verticalPixels_eq_map_transpose _ _ _).trans List.map_map⟩
    have hwalk := (horizontalPixels_walk p.1 p.2 q.2).transposed
    rwa [show transpose (q.2, p.1) = q from Prod.ext hx rfl] at hwalk
  · refine ⟨_, _, ?_, rfl⟩
    have hwalk := horizontalPixels_walk p.2 p.1 q.1
    rwa [show (q.1, p.2) = q from Prod.ext rfl hy] at hwalk
  · obtain ⟨hdy, hle⟩ := ordered_majorMinor_gaps hx hy rfl
    obtain ⟨f, n, hwalk, hlist⟩ := orderedPixels_walk hdy hle
    have hmajor := hwalk.of_ordered
    rw [generalPixels_eq (p := p) (q := q) rfl, hlist]
    unfold majorMinor at hmajor
    by_cases hs : steep p q = true
    · rw [if_pos hs] at hmajor ⊢
      exact ⟨_, n, hmajor.transposed, List.map_map⟩
    · rw [if_neg hs] at hmajor ⊢
      exact ⟨f, n, hmajor, rfl⟩

/-- Settles O32: the ends of a walk are the points, and each move is to a neighbour. -/
theorem lineIsAConnectedPathBetweenItsEndpoints : Obligations.LineIsAConnectedPathBetweenItsEndpoints := by
  unfold Obligations.LineIsAConnectedPathBetweenItsEndpoints
  intro p q _ _
  obtain ⟨f, n, hwalk, hlist⟩ := linePixels_walk p q
  have hget : ∀ k (h : k < (linePixels p q).length), (linePixels p q)[k] = f k := fun k h => by simp [hlist]
  have hmem : ∀ k ≤ n, f k ∈ linePixels p q := fun k hk =>
    hlist ▸ List.mem_map_of_mem (List.mem_range.2 (Nat.lt_succ_of_le hk))
  have hends : p ∈ linePixels p q ∧ q ∈ linePixels p q := by
    have hfirst := hmem 0 (Nat.zero_le n)
    have hlast := hmem n (le_refl n)
    rcases hwalk.ends with ⟨h0, hn⟩ | ⟨h0, hn⟩ <;> rw [h0] at hfirst <;> rw [hn] at hlast
    · exact ⟨hfirst, hlast⟩
    · exact ⟨hlast, hfirst⟩
  refine ⟨hends.1, hends.2, fun k hk => ?_⟩
  have hkn : k < n := by
    rw [hlist, List.length_map, List.length_range] at hk
    omega
  rw [hget, hget]
  obtain ⟨hnear1, hnear2⟩ := hwalk.near k hkn
  exact ⟨fun heq => Nat.succ_ne_self k (hwalk.inj _ _ heq), hnear1, hnear2⟩

theorem linePixels_inBox {p q r : Pixel} (hr : r ∈ linePixels p q) :
    (min p.1 q.1 ≤ r.1 ∧ r.1 ≤ max p.1 q.1) ∧ (min p.2 q.2 ≤ r.2 ∧ r.2 ≤ max p.2 q.2) := by
  obtain ⟨f, n, hwalk, hlist⟩ := linePixels_walk p q
  rw [hlist, List.mem_map] at hr
  obtain ⟨k, hk, rfl⟩ := hr
  exact hwalk.inBox k (Nat.le_of_lt_succ (List.mem_range.1 hk))

/-- Settles O33: the box, the distinct pixels and the number of moves of a walk. -/
theorem lineStaysInItsBoxWithoutRepeats : Obligations.LineStaysInItsBoxWithoutRepeats := by
  unfold Obligations.LineStaysInItsBoxWithoutRepeats
  intro p q _ _
  obtain ⟨f, n, hwalk, hlist⟩ := linePixels_walk p q
  refine ⟨fun r hr => linePixels_inBox hr, ?_, ?_⟩
  · rw [hlist]
    exact List.nodup_range.map fun j k => hwalk.inj j k
  · rw [hlist, List.length_map, List.length_range, hwalk.moves]

/-! ### Direction -/

theorem steep_comm (p q : Pixel) : steep q p = steep p q := by
  unfold steep
  rw [natAbs_sub_swap, natAbs_sub_swap q.2]

theorem ordered_swap {a b : Pixel} (h : a.1 ≠ b.1) : ordered (b, a) = ordered (a, b) := by
  unfold ordered
  rcases lt_or_gt_of_ne h with hlt | hgt
  · rw [if_pos hlt, if_neg (not_lt.2 hlt.le)]
  · rw [if_neg (not_lt.2 hgt.le), if_pos hgt]

/-- The order of the endpoints is undone by R128, and the straight cases only look at the smaller coordinate. -/
theorem linePixels_comm (p q : Pixel) : linePixels q p = linePixels p q := by
  by_cases hx : p.1 = q.1
  · unfold linePixels verticalPixels
    rw [if_pos hx, if_pos hx.symm, min_comm, natAbs_sub_swap, hx]
  by_cases hy : p.2 = q.2
  · unfold linePixels horizontalPixels
    rw [if_neg hx, if_neg (Ne.symm hx), if_pos hy, if_pos hy.symm, min_comm, natAbs_sub_swap, hy]
  have hswap : ordered (majorMinor q p) = ordered (majorMinor p q) := by
    unfold majorMinor
    rw [steep_comm]
    split_ifs
    · exact ordered_swap hy
    · exact ordered_swap hx
  rw [linePixels_general hx hy, linePixels_general (Ne.symm hx) (Ne.symm hy)]
  unfold generalPixels
  rw [steep_comm, hswap]

/-- Settles O34: the two lines are the same list. -/
theorem lineIgnoresItsDirection : Obligations.LineIgnoresItsDirection := by
  unfold Obligations.LineIgnoresItsDirection
  intro p q _ _ r
  rw [linePixels_comm]

/-! ### Mirrors -/

/-- The mirror image of a pixel in y, about m/2. -/
def mirrorY (m : Int) (p : Pixel) : Pixel := (p.1, m - p.2)

theorem mirrorY_injective (m : Int) : Function.Injective (mirrorY m) := fun p q h => by
  obtain ⟨h1, h2⟩ := Prod.mk.inj h
  exact Prod.ext h1 (by omega)

/-- The error term does not see the minor coordinate, so the loop with the opposite step draws the mirror image. -/
theorem errorLoop_mirrorY (m dx dy ystep : Int) (n : Nat) (err x y : Int) :
    errorLoop dx dy (-ystep) n err x (m - y) = (errorLoop dx dy ystep n err x y).map (mirrorY m) := by
  induction n generalizing err x y with
  | zero => rfl
  | succ n ih =>
    have hmove : m - y + -ystep = m - (y + ystep) := by ring
    simp only [errorLoop]
    split_ifs
    · rw [hmove, ih]
      rfl
    · rw [ih]
      rfl

theorem orderedPixels_mirrorY (m : Int) {a b : Pixel} (h : a.2 ≠ b.2) :
    orderedPixels (mirrorY m a) (mirrorY m b) = (orderedPixels a b).map (mirrorY m) := by
  have hdist : ((mirrorY m b).2 - (mirrorY m a).2).natAbs = (b.2 - a.2).natAbs := by
    simp only [mirrorY]
    omega
  have hsign : (if (mirrorY m a).2 < (mirrorY m b).2 then 1 else -1 : Int) = -(if a.2 < b.2 then 1 else -1) := by
    simp only [mirrorY]
    split_ifs <;> omega
  unfold orderedPixels
  rw [hdist, hsign]
  exact errorLoop_mirrorY m _ _ _ _ _ _ _

theorem ordered_mirrorY (m : Int) (a b : Pixel) :
    ordered (mirrorY m a, mirrorY m b) = (mirrorY m (ordered (a, b)).1, mirrorY m (ordered (a, b)).2) := by
  unfold ordered
  by_cases h : b.1 < a.1
  · rw [if_pos h]
    exact if_pos h
  · rw [if_neg h]
    exact if_neg h

theorem steep_mirrorY (m : Int) (p q : Pixel) : steep (mirrorY m p) (mirrorY m q) = steep p q := by
  have hdist : (m - q.2 - (m - p.2)).natAbs = (q.2 - p.2).natAbs := by omega
  simp only [steep, mirrorY, hdist]

theorem ordered_minor_ne {a b : Pixel} (h : a.2 ≠ b.2) : (ordered (a, b)).1.2 ≠ (ordered (a, b)).2.2 := by
  unfold ordered
  split_ifs
  · exact h.symm
  · exact h

theorem mem_verticalPixels {x y0 y1 : Int} {r : Pixel} :
    r ∈ verticalPixels x y0 y1 ↔ r.1 = x ∧ min y0 y1 ≤ r.2 ∧ r.2 ≤ max y0 y1 := by
  unfold verticalPixels
  rw [List.mem_map]
  constructor
  · rintro ⟨k, hk, rfl⟩
    have := List.mem_range.1 hk
    exact ⟨rfl, by omega, by omega⟩
  · rintro ⟨hx, hlo, hhi⟩
    exact ⟨(r.2 - min y0 y1).toNat, List.mem_range.2 (by omega), Prod.ext hx.symm (by simp only; omega)⟩

/-- A line that is not steep and not vertical is mirrored pixel by pixel. -/
theorem linePixels_mirrorY (m : Int) {p q : Pixel} (hx : p.1 ≠ q.1) (hflat : ¬steep p q = true) :
    linePixels (mirrorY m p) (mirrorY m q) = (linePixels p q).map (mirrorY m) := by
  by_cases hy : p.2 = q.2
  · have hy' : m - p.2 = m - q.2 := by rw [hy]
    unfold linePixels
    rw [if_neg hx, if_pos hy, if_neg (show (mirrorY m p).1 ≠ (mirrorY m q).1 from hx),
      if_pos (show (mirrorY m p).2 = (mirrorY m q).2 from hy')]
    simp [horizontalPixels, mirrorY, Function.comp_def]
  · have hy' : (mirrorY m p).2 ≠ (mirrorY m q).2 := fun h => hy (by simp only [mirrorY] at h; omega)
    have hflat' : ¬steep (mirrorY m p) (mirrorY m q) = true := by rwa [steep_mirrorY]
    rw [linePixels_general hx hy, linePixels_general (p := mirrorY m p) (q := mirrorY m q) hx hy']
    simp only [generalPixels, majorMinor, if_neg hflat, if_neg hflat', ordered_mirrorY]
    exact orderedPixels_mirrorY m (ordered_minor_ne hy)

theorem mem_linePixels_mirrorY (m : Int) {p q : Pixel} (h : ¬steep p q = true ∨ p.1 = q.1 ∨ p.2 = q.2) (r : Pixel) :
    r ∈ linePixels p q ↔ mirrorY m r ∈ linePixels (mirrorY m p) (mirrorY m q) := by
  by_cases hx : p.1 = q.1
  · have hvert : ∀ {u v : Pixel}, u.1 = v.1 → linePixels u v = verticalPixels u.1 u.2 v.2 := fun huv => if_pos huv
    rw [hvert hx, hvert (u := mirrorY m p) (v := mirrorY m q) hx, mem_verticalPixels, mem_verticalPixels]
    simp only [mirrorY]
    omega
  · have hflat : ¬steep p q = true := by
      rcases h with hflat | hx' | hy
      · exact hflat
      · exact absurd hx' hx
      · simp [steep, hy]
    rw [linePixels_mirrorY m hx hflat, List.mem_map_of_injective (mirrorY_injective m)]

theorem linePixels_of_snd_eq {p q : Pixel} (h : p.2 = q.2) : linePixels p q = horizontalPixels p.2 p.1 q.1 := by
  by_cases hx : p.1 = q.1
  · unfold linePixels verticalPixels horizontalPixels
    simp [hx, h]
  · unfold linePixels
    rw [if_neg hx, if_pos h]

/-- R127 draws a steep line as the transposed flat one; a straight one is transposed by its own case. -/
theorem linePixels_transpose {p q : Pixel} (h : steep p q = true ∨ p.1 = q.1 ∨ p.2 = q.2) :
    linePixels p q = (linePixels (transpose p) (transpose q)).map transpose := by
  by_cases hx : p.1 = q.1
  · rw [linePixels_of_snd_eq (p := transpose p) (q := transpose q) hx, ← verticalPixels_eq_map_transpose]
    exact if_pos hx
  by_cases hy : p.2 = q.2
  · have hvert : linePixels (transpose p) (transpose q) = verticalPixels p.2 p.1 q.1 := if_pos hy
    rw [linePixels_of_snd_eq hy, hvert, verticalPixels_eq_map_transpose, List.map_map,
      show transpose ∘ transpose = id from rfl, List.map_id]
  have hs : steep p q = true := by
    rcases h with hs | hx' | hy'
    · exact hs
    · exact absurd hx' hx
    · exact absurd hy' hy
  have hflat : ¬steep (transpose p) (transpose q) = true := by
    have := steep_iff.1 hs
    rw [steep_iff]
    exact not_lt.2 this.le
  rw [linePixels_general hx hy, linePixels_general (p := transpose p) (q := transpose q) hy hx]
  simp only [generalPixels, majorMinor, if_pos hs, if_neg hflat]

theorem mem_linePixels_transpose {p q : Pixel} (h : steep p q = true ∨ p.1 = q.1 ∨ p.2 = q.2) (r : Pixel) :
    r ∈ linePixels p q ↔ transpose r ∈ linePixels (transpose p) (transpose q) := by
  rw [linePixels_transpose h]
  exact List.mem_map_of_injective transpose_injective (a := transpose r)

/-- The mirror image of a pixel in x: the mirror in y between two transpositions. -/
def mirrorX (m : Int) (p : Pixel) : Pixel := transpose (mirrorY m (transpose p))

theorem mem_linePixels_mirrorX (m : Int) {p q : Pixel} (h : steep p q = true ∨ p.1 = q.1 ∨ p.2 = q.2) (r : Pixel) :
    r ∈ linePixels p q ↔ mirrorX m r ∈ linePixels (mirrorX m p) (mirrorX m q) := by
  have hflat : ¬steep (transpose p) (transpose q) = true ∨ p.2 = q.2 ∨ p.1 = q.1 :=
    h.imp (fun hs => by rw [steep_iff] at hs ⊢; exact not_lt.2 hs.le) Or.symm
  have himage : steep (mirrorX m p) (mirrorX m q) = true ∨ m - p.1 = m - q.1 ∨ p.2 = q.2 := by
    refine h.imp (fun hs => ?_) (Or.imp_left fun hx => by rw [hx])
    have hdist : (m - q.1 - (m - p.1)).natAbs = (q.1 - p.1).natAbs := by omega
    simpa only [steep, mirrorX, mirrorY, transpose, hdist] using hs
  calc r ∈ linePixels p q
    _ ↔ transpose r ∈ linePixels (transpose p) (transpose q) := mem_linePixels_transpose h r
    _ ↔ mirrorY m (transpose r) ∈ linePixels (mirrorY m (transpose p)) (mirrorY m (transpose q)) :=
      mem_linePixels_mirrorY m hflat (transpose r)
    _ ↔ mirrorX m r ∈ linePixels (mirrorX m p) (mirrorX m q) := (mem_linePixels_transpose himage (mirrorX m r)).symm

/-- Settles O35: the mirror in y, and the mirror in x by transposition. -/
theorem lineMirrorsAlongItsMinorAxis : Obligations.LineMirrorsAlongItsMinorAxis := by
  unfold Obligations.LineMirrorsAlongItsMinorAxis
  intro p q m
  refine ⟨fun h r => ?_, fun h r => ?_⟩
  · exact mem_linePixels_mirrorY m (h.imp_left fun hflat => by rw [steep_iff]; exact not_lt.2 hflat) r
  · exact mem_linePixels_mirrorX m (h.imp_left steep_iff.2) r

end Sys2Proof.Machine

/-! PROOFS about SETPIX, LINE and EDGE on memory (42_raster.md section 4, 20_memory.md sections 1, 3 and 5): what they
check and what they draw, which bits that sets, and how it interleaves with the accesses of other agents
(70_reset_and_hazards.md section 3). -/

namespace Sys2Proof.Machine

/-! ### Pixels as bits of memory -/

/-- The 10240 bytes of a framebuffer are distinct, so the address of a pixel of the screen gives its row and its byte in
the row. -/
theorem pixelAddr_eq_iff {base : Word} {p q : Pixel} (hp : OnScreen p) (hq : OnScreen q) :
    pixelAddr base p = pixelAddr base q ↔ p.2 = q.2 ∧ p.1.toNat / 8 = q.1.toNat / 8 := by
  have hdistinct : ∀ {o o' : Nat}, o < 10240 → o' < 10240 →
      ((base.toNat + o) % 2 ^ 32 = (base.toNat + o') % 2 ^ 32 ↔ o = o') := fun ho ho' => by
    refine ⟨fun h => ?_, fun h => by rw [h]⟩
    exact Nat.ModEq.eq_of_lt_of_lt (Nat.ModEq.add_left_cancel' _ h) (by omega) (by omega)
  obtain ⟨⟨hx0, hx1⟩, hy0, hy1⟩ := hp
  obtain ⟨⟨hu0, hu1⟩, hv0, hv1⟩ := hq
  unfold pixelAddr rowOff
  rw [Nat.add_assoc, Nat.add_assoc, hdistinct (by omega) (by omega)]
  omega

theorem pixelMask_getLsbD (q : Pixel) (x : Nat) :
    (pixelMask q).getLsbD (7 - x % 8) = true ↔ q.1.toNat % 8 = x % 8 := by
  have hbit : ∀ a < 8, ∀ b < 8, (0x80#8 >>> a).getLsbD (7 - b) = true ↔ a = b := by decide
  exact hbit _ (Nat.mod_lt _ (by decide)) _ (Nat.mod_lt _ (by decide))

/-- Two pixels of the screen with the same byte and the same bit are the same. -/
theorem pixel_eq_iff {base : Word} {p q : Pixel} (hp : OnScreen p) (hq : OnScreen q) :
    pixelAddr base q = pixelAddr base p ∧ (pixelMask q).getLsbD (7 - p.1.toNat % 8) = true ↔ p = q := by
  rw [pixelAddr_eq_iff hq hp, pixelMask_getLsbD, Prod.ext_iff]
  omega

theorem pixelAddr_inFramebuffer {base : Word} {p : Pixel} (hp : OnScreen p) : inFramebuffer base (pixelAddr base p) :=
  ⟨rowOff p.2.toNat + p.1.toNat / 8, by unfold rowOff; omega, by rw [pixelAddr, Nat.add_assoc]⟩

theorem pixelOn_setPixels {m : Memory} (hm : m.wf = true) (base : Word) {ps : List Pixel} (hps : ∀ q ∈ ps, OnScreen q)
    {p : Pixel} (hp : OnScreen p) :
    pixelOn base (setPixels base m ps) p = true ↔ pixelOn base m p = true ∨ p ∈ ps := by
  unfold pixelOn
  rw [setPixels_getLsbD hm]
  refine or_congr_right ⟨fun ⟨q, hq, hsame⟩ => ?_, fun hmem => ⟨p, hmem, (pixel_eq_iff hp hp).2 rfl⟩⟩
  rwa [(pixel_eq_iff hp (hps q hq)).1 hsame]

/-- The pixels of a drawing command that does not fault are on the screen, since a line stays in its box. -/
theorem drawPlan_onScreen {i : Instr} {s : State} {b : Buf} {ps : List Pixel} (h : drawPlan i s = some (b, .ok ps)) :
    ∀ p ∈ ps, OnScreen p := by
  have hseg : ∀ {u v : Pixel}, segmentPlan u v = .ok ps → ∀ p ∈ ps, OnScreen p := fun hplan p hp => by
    obtain ⟨hu, hv, rfl⟩ := segmentPlan_ok_iff.1 hplan
    have hbox := linePixels_inBox hp
    rw [onScreen_iff] at hu hv
    omega
  cases i with
  | nop | sincos | xform | reset => cases h
  | setpix b' =>
    obtain ⟨hon, rfl⟩ := setpixPlan_ok_iff.1 (Prod.mk.inj (Option.some.inj h)).2
    exact fun p hp => List.mem_singleton.1 hp ▸ onScreen_iff.1 hon
  | line b' => exact hseg (Prod.mk.inj (Option.some.inj h)).2
  | edge b' e =>
    obtain ⟨_, _, hplan⟩ := edgePlan_ok_iff.1 (Prod.mk.inj (Option.some.inj h)).2
    exact hseg hplan

/-! ### Sequences of SetPixel calls -/

/-- Settles O25: nothing held is `setPixels`, and a held byte is read by the first call only. -/
theorem finishPixelsIsTheCallSequence : Obligations.FinishPixelsIsTheCallSequence := by
  unfold Obligations.FinishPixelsIsTheCallSequence
  intro base m v p ps
  simp only [finishPixels_none]
  exact ⟨rfl, rfl, rfl⟩

/-- A sequence of SetPixel calls keeps every bit that is set. -/
theorem setPixels_read_and {m : Memory} (hm : m.wf = true) (base : Word) (ps : List Pixel) (a : Nat) :
    (setPixels base m ps).read a &&& m.read a = m.read a := by
  refine BitVec.eq_of_getLsbD_eq fun j _ => ?_
  rw [BitVec.getLsbD_and, Bool.eq_iff_iff, Bool.and_eq_true, setPixels_getLsbD hm]
  exact ⟨And.right, fun h => ⟨.inl h, h⟩⟩

/-- What a byte ends as depends on that byte alone. -/
theorem setPixels_read_congr {m m' : Memory} (hm : m.wf = true) (hm' : m'.wf = true) (base : Word) (ps : List Pixel)
    {a : Nat} (h : m.read a = m'.read a) : (setPixels base m ps).read a = (setPixels base m' ps).read a := by
  refine BitVec.eq_of_getLsbD_eq fun j _ => ?_
  rw [Bool.eq_iff_iff, setPixels_getLsbD hm, setPixels_getLsbD hm', h]

/-- Settles O39: each bit of the result asks only whether some call sets it. -/
theorem drawOrderDoesNotMatter : Obligations.DrawOrderDoesNotMatter := by
  unfold Obligations.DrawOrderDoesNotMatter
  intro base m ps qs hm hsame
  refine Memory.ext_wf (setPixels_wf hm base ps) (setPixels_wf hm base qs) fun a => ?_
  refine BitVec.eq_of_getLsbD_eq fun j _ => ?_
  rw [Bool.eq_iff_iff, setPixels_getLsbD hm, setPixels_getLsbD hm]
  simp only [hsame]

theorem setPixels_twice {m : Memory} (hm : m.wf = true) (base : Word) (ps : List Pixel) :
    setPixels base (setPixels base m ps) ps = setPixels base m ps := by
  rw [← setPixels_append]
  exact drawOrderDoesNotMatter base m _ _ hm (by simp)

/-! ### The drawing commands -/

theorem exec_of_drawPlan_ok {i : Instr} {s : State} {b : Buf} {ps : List Pixel} (h : drawPlan i s = some (b, .ok ps)) :
    exec i s = .next { s with
      mem := finishPixels (fbBase b s) s.mem s.held (ps.drop s.drawn), drawn := 0, held := none, busy := false } :=
  exec_of_drawPlan h

theorem exec_of_drawPlan_error {i : Instr} {s : State} {b : Buf} {f : FaultRecord}
    (h : drawPlan i s = some (b, .error f)) : exec i s = .next (raiseFault f s) := exec_of_drawPlan h

theorem onScreen_false {p : Pixel} (h : ¬OnScreen p) : onScreen p = false := Bool.eq_false_iff.2 (mt onScreen_iff.1 h)

theorem segmentPlan_ok {p q : Pixel} (hp : OnScreen p) (hq : OnScreen q) : segmentPlan p q = .ok (linePixels p q) :=
  segmentPlan_ok_iff.2 ⟨onScreen_iff.2 hp, onScreen_iff.2 hq, rfl⟩

theorem segmentPlan_first {p : Pixel} (hp : ¬OnScreen p) (q : Pixel) : segmentPlan p q = .error (coordFault p) :=
  segmentPlan_error_iff.2 (.inl ⟨onScreen_false hp, rfl⟩)

theorem segmentPlan_second {p q : Pixel} (hp : OnScreen p) (hq : ¬OnScreen q) :
    segmentPlan p q = .error (coordFault q) :=
  segmentPlan_error_iff.2 (.inr ⟨onScreen_iff.2 hp, onScreen_false hq, rfl⟩)

/-- info(x, y) is the low halves of y and x side by side (42_raster.md R122). -/
theorem coordInfo_eq_append {p : Pixel} {x y : Half} (hx : p.1 % 65536 = x.toNat) (hy : p.2 % 65536 = y.toNat) :
    coordInfo p = y ++ x := by
  have hxlt := x.isLt
  have hylt := y.isLt
  refine BitVec.eq_of_toNat_eq ?_
  rw [coordInfo, hx, hy, BitVec.toNat_append, ← Nat.shiftLeft_add_eq_or_of_lt hxlt, Nat.shiftLeft_eq,
    BitVec.toNat_ofInt]
  omega

theorem coordInfo_words (x y : Word) :
    coordInfo (x.toInt, y.toInt) = y.extractLsb' 0 16 ++ x.extractLsb' 0 16 := by
  have hlow : ∀ w : Word, w.toInt % 65536 = (w.extractLsb' 0 16).toNat := fun w => by
    have := w.isLt
    rw [BitVec.extractLsb'_toNat, Nat.shiftRight_zero, BitVec.toInt_eq_toNat_cond]
    split <;> omega
  exact coordInfo_eq_append (hlow x) (hlow y)

theorem coordInfo_halves (x y : Half) : coordInfo (x.toInt, y.toInt) = y ++ x := by
  have hlow : ∀ w : Half, w.toInt % 65536 = w.toNat := fun w => by
    have := w.isLt
    rw [BitVec.toInt_eq_toNat_cond]
    split <;> omega
  exact coordInfo_eq_append (hlow x) (hlow y)

/-- Settles O26: the plan of SETPIX is one pixel, which a call made already takes off. -/
theorem setpixOrsOneBit : Obligations.SetpixOrsOneBit := by
  unfold Obligations.SetpixOrsOneBit
  rintro s b x y rfl rfl
  refine ⟨fun hon base a hbase ha => ?_, fun hoff => ?_⟩
  · have hplan : setpixPlan s = .ok [point0 s] := setpixPlan_ok_iff.2 ⟨onScreen_iff.2 hon, rfl⟩
    have hexec := exec_of_drawPlan_ok (i := .setpix b) (congrArg (fun plan => some (b, plan)) hplan)
    obtain rfl : base = fbBase b s := hbase.trans (by cases b <;> rfl)
    obtain rfl : a = pixelAddr (fbBase b s) (point0 s) := ha
    rw [hexec]
    refine ⟨fun hdrawn hheld => ?_, fun v hdrawn hheld => ?_, fun hdrawn => ?_⟩
    · rw [hdrawn, hheld]
      rfl
    · rw [hdrawn, hheld]
      rfl
    · rw [List.drop_eq_nil_of_le (show 1 ≤ s.drawn by omega)]
      rfl
  · have hplan : setpixPlan s = .error (coordFault (point0 s)) := setpixPlan_error_iff.2 ⟨onScreen_false hoff, rfl⟩
    rw [exec_of_drawPlan_error (i := .setpix b) (congrArg (fun plan => some (b, plan)) hplan), ← coordInfo_words]
    rfl

/-- Settles O27: the plan of LINE is the segment between the two points. -/
theorem lineChecksThenDraws : Obligations.LineChecksThenDraws := by
  unfold Obligations.LineChecksThenDraws
  rintro s b p q rfl rfl
  have hplan : ∀ {plan}, segmentPlan (point0 s) (point1 s) = plan → drawPlan (.line b) s = some (b, plan) :=
    fun h => congrArg (fun plan => some (b, plan)) h
  refine ⟨fun hp => ?_, fun hp hq => ?_, fun hp hq => ?_⟩
  · rw [exec_of_drawPlan_error (hplan (segmentPlan_first hp _)), ← coordInfo_words]
    rfl
  · rw [exec_of_drawPlan_error (hplan (segmentPlan_second hp hq)), ← coordInfo_words]
    rfl
  · rw [exec_of_drawPlan_ok (hplan (segmentPlan_ok hp hq))]
    cases b <;> rfl

/-- Settles O28: the checks of the index and of TPVALID, and then the segment between the two vertices. -/
theorem edgeChecksThenDraws : Obligations.EdgeChecksThenDraws := by
  unfold Obligations.EdgeChecksThenDraws
  intro s b e
  have hplan : ∀ {plan}, edgePlan e s = plan → drawPlan (.edge b e) s = some (b, plan) :=
    fun h => congrArg (fun plan => some (b, plan)) h
  refine ⟨fun he => ?_, fun he hvalid => ?_, ?_⟩
  · rw [exec_of_drawPlan_error (hplan (edgePlan_error_iff.2 (.inl ⟨he, rfl⟩)))]
    rfl
  · rw [exec_of_drawPlan_error (hplan (edgePlan_error_iff.2 (.inr (.inl ⟨he, hvalid, rfl⟩))))]
    rfl
  · rintro hvalid i j p q hedge rfl rfl
    have he : e < 12 := by
      have := (List.getElem?_eq_some_iff.1 hedge).1
      rwa [Vector.length_toList] at this
    rw [edgeTable_getElem? he, Option.some.injEq, Prod.mk.injEq] at hedge
    obtain ⟨rfl, rfl⟩ := hedge
    have hseg : ∀ {plan}, segmentPlan (tpPoint s edgeTable[e].1) (tpPoint s edgeTable[e].2) = plan →
        drawPlan (.edge b e) s = some (b, plan) := fun h => hplan (by rw [edgePlan, dif_pos he, if_pos hvalid, h])
    refine ⟨fun hp => ?_, fun hp hq => ?_, fun hp hq => ?_⟩
    · rw [exec_of_drawPlan_error (hseg (segmentPlan_first hp _)), ← coordInfo_halves]
      rfl
    · rw [exec_of_drawPlan_error (hseg (segmentPlan_second hp hq)), ← coordInfo_halves]
      rfl
    · rw [exec_of_drawPlan_ok (hseg (segmentPlan_ok hp hq))]
      cases b <;> rfl

/-! ### What a drawing command does to memory -/

/-- Outside the framebuffer a drawing command changes no byte. -/
theorem finishPixels_read_outside {base : Word} {ps : List Pixel} (hps : ∀ p ∈ ps, OnScreen p) (m : Memory)
    (held : Option Byte) {a : Nat} (ha : ¬inFramebuffer base a) : (finishPixels base m held ps).read a = m.read a :=
  finishPixels_read_other base m held ps a fun p hp heq => ha (heq ▸ pixelAddr_inFramebuffer (hps p hp))

/-- Settles O36: with nothing held the calls are a `setPixels` of pixels on the screen. -/
theorem drawnPixelsAreExactlyThePlan : Obligations.DrawnPixelsAreExactlyThePlan := by
  unfold Obligations.DrawnPixelsAreExactlyThePlan
  intro i s b ps hm hheld hplan
  have hps : ∀ p ∈ ps.drop s.drawn, OnScreen p := fun p hp => drawPlan_onScreen hplan p (List.mem_of_mem_drop hp)
  refine ⟨_, exec_of_drawPlan_ok hplan, fun p hp => ?_, fun a ha => finishPixels_read_outside hps _ _ ha⟩
  rw [hheld, finishPixels_none]
  exact pixelOn_setPixels hm (fbBase b s) hps hp

/-- The call that has read `v` already writes it back with its bit. -/
theorem pixelOn_write_held {m : Memory} (hm : m.wf = true) {base : Word} {p r : Pixel} (hp : OnScreen p)
    (hr : OnScreen r) (v : Byte) :
    pixelOn base (m.write (pixelAddr base r) (v ||| pixelMask r)) p = true ↔
      (if pixelAddr base p = pixelAddr base r then v.getLsbD (7 - p.1.toNat % 8) = true else pixelOn base m p = true) ∨
      p = r := by
  unfold pixelOn
  rw [Memory.read_write hm, ← pixel_eq_iff (base := base) hp hr]
  by_cases heq : pixelAddr base p = pixelAddr base r
  · rw [if_pos heq.symm, if_pos heq, BitVec.getLsbD_or, Bool.or_eq_true]
    simp only [heq, true_and]
  · rw [if_neg (Ne.symm heq), if_neg heq]
    simp only [Ne.symm heq, false_and, or_false]

/-- Settles O58: the first call writes back what it held, and the others are a `setPixels` from there. -/
theorem heldByteIsWrittenBack : Obligations.HeldByteIsWrittenBack := by
  unfold Obligations.HeldByteIsWrittenBack
  intro i s b ps v hm hheld hplan
  have hps : ∀ p ∈ ps.drop s.drawn, OnScreen p := fun p hp => drawPlan_onScreen hplan p (List.mem_of_mem_drop hp)
  refine ⟨_, exec_of_drawPlan_ok hplan, rfl, fun a ha => finishPixels_read_outside hps _ _ ha, fun hnil => ?_,
    fun r rest hcons p hp => ?_⟩
  · rw [hnil, finishPixels_nil]
  · rw [hcons] at hps ⊢
    obtain ⟨hr, hrest⟩ := List.forall_mem_cons.1 hps
    have hwf := Memory.wf_write hm (pixelAddr_lt (fbBase b s) r) (v ||| pixelMask r)
    rw [hheld, finishPixels, Option.getD_some, pixelOn_setPixels hwf _ hrest hp, pixelOn_write_held hm hp hr,
      List.mem_cons, or_assoc]

/-- Settles O37: a fault entry, or the calls and completion. -/
theorem drawingLeavesEverythingElse : Obligations.DrawingLeavesEverythingElse := by
  unfold Obligations.DrawingLeavesEverythingElse
  intro i s b plan hplan
  cases plan with
  | error f =>
    refine ⟨_, exec_of_drawPlan_error hplan, rfl, rfl, rfl, rfl, rfl, rfl, rfl, rfl, rfl, rfl, rfl, rfl, rfl, rfl,
      rfl, rfl, rfl, fun g hg => ?_, nofun⟩
    cases hg
    exact ⟨rfl, rfl, rfl, rfl⟩
  | ok ps =>
    refine ⟨_, exec_of_drawPlan_ok hplan, rfl, rfl, rfl, rfl, rfl, rfl, rfl, rfl, rfl, rfl, rfl, rfl, rfl, rfl, rfl,
      rfl, rfl, nofun, fun qs hqs => ?_⟩
    cases hqs
    exact ⟨rfl, rfl, rfl, fun a ha => finishPixels_read_other _ _ _ _ a ha⟩

/-- Settles O38: a command that draws nothing keeps memory, and the calls of the others only set bits. -/
theorem commandsOnlySetBits : Obligations.CommandsOnlySetBits := by
  unfold Obligations.CommandsOnlySetBits
  intro i s t hm hheld hexec a
  rcases exec_mem hexec with hsame | ⟨b, ps, hplan⟩
  · rw [hsame, BitVec.and_self]
  · rw [exec_of_drawPlan_ok hplan] at hexec
    cases hexec
    rw [hheld, finishPixels_none]
    exact setPixels_read_and hm _ _ a

/-- Settles O40: the second LINE has the plan of the first, and setting set pixels changes nothing. -/
theorem lineTwiceIsLineOnce : Obligations.LineTwiceIsLineOnce := by
  unfold Obligations.LineTwiceIsLineOnce
  intro s t b hm hdrawn hheld hexec
  cases hplan : linePlan s with
  | error f =>
    have hdraw : drawPlan (.line b) s = some (b, .error f) := congrArg (fun plan => some (b, plan)) hplan
    rw [exec_of_drawPlan_error hdraw] at hexec
    cases hexec
    exact ⟨_, exec_of_drawPlan_error (s := raiseFault f s) hdraw, rfl⟩
  | ok ps =>
    have hdraw : drawPlan (.line b) s = some (b, .ok ps) := congrArg (fun plan => some (b, plan)) hplan
    rw [exec_of_drawPlan_ok hdraw, hdrawn, hheld, finishPixels_none] at hexec
    cases hexec
    refine ⟨_, exec_of_drawPlan_ok (b := b) (ps := ps) hdraw, ?_⟩
    exact (finishPixels_none _ _ _).trans (setPixels_twice hm (fbBase b s) ps)

/-! ### Other agents -/

/-- A read made ahead changes nothing as long as the byte is left alone. -/
theorem finishPixels_readNext (base : Word) (m : Memory) (now : Bool) (ps : List Pixel) :
    finishPixels base m (readNext base m now ps) ps = setPixels base m ps := by
  cases ps with
  | nil => rfl
  | cons p ps => cases now <;> rfl

/-- The first `k` of some calls and then the others are all of them, with the next read made or not. -/
theorem finishPixels_take_drop (base : Word) (m : Memory) (held : Option Byte) (k : Nat) (now : Bool)
    (ps : List Pixel) :
    finishPixels base (finishPixels base m held (ps.take k))
      (if k = 0 ∧ held.isSome then held else readNext base (finishPixels base m held (ps.take k)) now (ps.drop k))
      (ps.drop k) = finishPixels base m held ps := by
  cases k with
  | zero =>
    cases held with
    | some v => rfl
    | none => exact (finishPixels_readNext base m now ps).trans (finishPixels_none base m ps).symm
  | succ k =>
    rw [if_neg (fun h => Nat.succ_ne_zero k h.1), finishPixels_readNext]
    cases ps with
    | nil => rfl
    | cons p ps =>
      rw [List.take_succ_cons, List.drop_succ_cons, finishPixels, finishPixels, ← setPixels_append,
        List.take_append_drop]

theorem drop_min_length (ps : List Pixel) (n : Nat) : ps.drop (min ps.length n) = ps.drop n := by
  rcases le_total ps.length n with h | h
  · rw [min_eq_left h, List.drop_length, List.drop_eq_nil_of_le h]
  · rw [min_eq_right h]

/-- Advancing the command in flight leaves to be done what brings it to the same end. -/
theorem finishPixels_advanceBy (k : Nat) (now : Bool) (base : Word) (ps : List Pixel) (s : State) :
    finishPixels base (advanceBy k now base ps s).mem (advanceBy k now base ps s).held
      (ps.drop (advanceBy k now base ps s).drawn) = finishPixels base s.mem s.held (ps.drop s.drawn) := by
  have h := finishPixels_take_drop base s.mem s.held k now (ps.drop s.drawn)
  rw [List.drop_drop] at h
  simp only [advanceBy, drop_min_length]
  exact h

/-- Settles O53: the byte is read after some of the remaining calls, and the others end as they would have. -/
theorem foreignReadSeesAFirstPartOfTheDrawing : Obligations.ForeignReadSeesAFirstPartOfTheDrawing := by
  unfold Obligations.ForeignReadSeesAFirstPartOfTheDrawing
  intro s addr rest hinputs
  have hstep := step_of_inputs_memRead hinputs
  unfold foreignRead at hstep
  rcases advanceFlight_cases (popInput rest s) with ⟨hnone, he⟩ | ⟨base, ps, k, now, hflight, he⟩ <;> rw [he] at hstep
  · rw [flight_popInput] at hnone
    refine ⟨s.mem, s.freeCtr, s.drawn, s.held, _, hstep, rfl, fun _ => ⟨rfl, rfl, rfl⟩, fun base ps hsome => ?_⟩
    rw [hnone] at hsome
    cases hsome
  · rw [flight_popInput] at hflight
    refine ⟨_, _, _, _, _, hstep, rfl, fun hnone => ?_, fun base' ps' hsome _ => ?_⟩
    · rw [hflight] at hnone
      cases hnone
    · rw [hflight] at hsome
      cases hsome
      exact ⟨⟨k, rfl⟩, finishPixels_advanceBy k now base ps (popInput rest s)⟩

/-- A write between the accesses of some calls: other bytes do not see it, and its own byte ends as if it had come
before the calls that are left, or, between the read and the write of a call on that byte, is lost. -/
theorem write_interleaves {m : Memory} (hm : m.wf = true) (base : Word) (now : Bool) (ps : List Pixel) {addr : Nat}
    (haddr : addr < 2 ^ 32) (v : Byte) :
    let after := finishPixels base (m.write addr v) (readNext base m now ps) ps
    (∀ a, a ≠ addr → after.read a = (setPixels base m ps).read a) ∧
    (after.read addr = (setPixels base m ps).read addr ∨
      ∃ j, after.read addr = (setPixels base (m.write addr v) (ps.drop j)).read addr) := by
  intro after
  have hwritten : (m.write addr v).wf = true := Memory.wf_write hm haddr v
  have hother : ∀ {a}, a ≠ addr → (m.write addr v).read a = m.read a := fun ha => Memory.read_write_other m ha.symm v
  by_cases hread : now = true ∧ ps ≠ []
  case neg =>
    have hnone : readNext base m now ps = none := by
      cases ps with
      | nil => rfl
      | cons p ps => exact if_neg fun hnow => hread ⟨hnow, List.cons_ne_nil p ps⟩
    have hafter : after = setPixels base (m.write addr v) ps := by simp only [after, hnone, finishPixels_none]
    rw [hafter]
    exact ⟨fun a ha => setPixels_read_congr hwritten hm base ps (hother ha), .inr ⟨0, rfl⟩⟩
  case pos =>
    obtain ⟨rfl, hne⟩ := hread
    obtain ⟨p, rest, rfl⟩ := List.exists_cons_of_ne_nil hne
    have hwf := Memory.wf_write hwritten (pixelAddr_lt base p) (m.read (pixelAddr base p) ||| pixelMask p)
    have hafter : after = setPixels base
        ((m.write addr v).write (pixelAddr base p) (m.read (pixelAddr base p) ||| pixelMask p)) rest := rfl
    have hbyte : ∀ {a}, pixelAddr base p = a ∨ a ≠ addr → after.read a = (setPixels base m (p :: rest)).read a := by
      intro a ha
      rw [hafter, setPixels_cons]
      refine setPixels_read_congr hwf (setPixel_wf hm base p) base rest ?_
      rw [setPixel, Memory.read_write hwritten, Memory.read_write (m := m) hm (pixelAddr base p)]
      by_cases hpa : pixelAddr base p = a
      · rw [if_pos hpa, if_pos hpa]
      · rw [if_neg hpa, if_neg hpa, hother (ha.resolve_left hpa)]
    refine ⟨fun a ha => hbyte (.inr ha), ?_⟩
    by_cases hpa : pixelAddr base p = addr
    · exact .inl (hbyte (.inl hpa))
    · refine .inr ⟨1, ?_⟩
      rw [hafter]
      exact setPixels_read_congr hwf hwritten base rest (Memory.read_write_other _ hpa _)

/-- The turn of the block makes what is left of the calls of the command in flight. -/
theorem blockTurn_of_flight {s : State} {base : Word} {ps : List Pixel} (h : flight s = some (base, ps)) :
    blockTurn s = .next { s with
      mem := finishPixels base s.mem s.held (ps.drop s.drawn), drawn := 0, held := none, busy := false } := by
  obtain ⟨hbusy, i, b, hd, hplan, rfl⟩ := flight_some_iff.1 h
  rw [blockTurn_of_decode_ok hbusy hd, exec_of_drawPlan_ok hplan]

theorem advanceFlight_of_flight {s : State} {base : Word} {ps : List Pixel} (h : flight s = some (base, ps)) :
    ∃ k now, advanceFlight s = advanceBy k now base ps s := by
  rcases advanceFlight_cases s with ⟨hnone, _⟩ | ⟨base', ps', k, now, hsome, he⟩
  · exact nomatch h.symm.trans hnone
  · cases h.symm.trans hsome
    exact ⟨k, now, he⟩

/-- Settles O52: the write lands after some of the remaining calls, and the turn of the block makes the others. -/
theorem foreignWriteInterleavesWithTheDrawing : Obligations.ForeignWriteInterleavesWithTheDrawing := by
  unfold Obligations.ForeignWriteInterleavesWithTheDrawing
  intro s addr v base ps hm hheld hinputs hflight
  obtain ⟨k, now, he⟩ := advanceFlight_of_flight (s := popInput [] s) hflight
  have hstep := step_of_inputs_memWrite hinputs
  unfold foreignWrite at hstep
  rw [he] at hstep
  refine ⟨_, _, hstep, (step_of_inputs_nil rfl).trans (blockTurn_of_flight (base := base) (ps := ps) hflight), rfl, ?_⟩
  simp only [advanceBy, drop_min_length, popInput_mem, popInput_drawn, popInput_held, hheld, Option.isSome_none,
    Bool.false_eq_true, and_false, if_false, finishPixels_none]
  rw [← List.drop_drop]
  generalize ps.drop s.drawn = qs
  have hwhole : setPixels base (setPixels base s.mem (qs.take k)) (qs.drop k) = setPixels base s.mem qs := by
    rw [← setPixels_append, List.take_append_drop]
  have hfirst := setPixels_wf hm base (qs.take k)
  obtain ⟨hother, hown⟩ := write_interleaves hfirst base now (qs.drop k) addr.isLt v
  rw [hwhole] at hother hown
  refine ⟨hother, hown.imp_right fun ⟨j, hj⟩ => ⟨k + j, hj.trans ?_⟩⟩
  rw [List.drop_drop]
  refine setPixels_read_congr (Memory.wf_write hfirst addr.isLt v) (Memory.wf_write hm addr.isLt v) base _ ?_
  rw [Memory.read_write hfirst, Memory.read_write hm, if_pos rfl, if_pos rfl]

end Sys2Proof.Machine

/-! PROOFS about legal configurations (00_scope.md section 5, 41_transform.md sections 2, 3 and 6): the unchecked
products of XFORM, the angles at which the rotation is exact, the edges of the reference cube, and the legality test
itself. -/

namespace Sys2Proof.Machine

/-! ### The ranges of a legal configuration -/

/-- The legality test, condition by condition. -/
theorem params_legal_iff {p : Params} :
    p.legal = true ↔
      (1 ≤ p.cubeSize ∧ p.cubeSize ≤ 32767) ∧ (p.projShift ≤ 15 ∧ p.projShift ≠ 14) ∧ p.perspUnit ≤ 32767 ∧
      (-32768 ≤ p.centreX ∧ p.centreX ≤ 32767) ∧ (-32768 ≤ p.centreY ∧ p.centreY ≤ 32767) ∧
      p.sinTab.length = 90 ∧ ∀ d < 90, sineLegal d (p.sinTab.getD d 0) = true := by
  simp only [Params.legal, Bool.and_eq_true, decide_eq_true_eq, List.all_eq_true, List.mem_range, and_assoc]

theorem config_projShift_le (c : Config) : c.projShift ≤ 15 := by
  obtain ⟨_, ⟨hle, _⟩, _⟩ := params_legal_iff.1 c.isLegal
  exact hle

theorem config_perspUnit_le (c : Config) : c.perspUnit ≤ 32767 := by
  obtain ⟨_, _, hle, _⟩ := params_legal_iff.1 c.isLegal
  exact hle

/-! ### The products of XFORM -/

/-- Settles O21: each product is bounded by the sizes of its factors, and the shift makes nothing larger. -/
theorem uncheckedProductsFitThirtyTwoBits : Obligations.UncheckedProductsFitThirtyTwoBits := by
  unfold Obligations.UncheckedProductsFitThirtyTwoBits
  intro c angle a b _ ha hb
  have hprod : ∀ {u v K : Int}, |u| ≤ 32768 → |v| ≤ K → |u * v| ≤ 32768 * K := fun hu hv => by
    rw [abs_mul]
    exact mul_le_mul hu hv (abs_nonneg _) (by decide)
  obtain ⟨hsn, hcs⟩ := abs_sincos_le c angle
  have ha' : |a| ≤ 32768 := abs_le.2 ⟨ha.1, by omega⟩
  have hb' : |b| ≤ 32768 := abs_le.2 ⟨hb.1, by omega⟩
  have hpersp : |(c.perspUnit : Int)| ≤ 32767 := by
    rw [Nat.abs_cast]
    exact_mod_cast config_perspUnit_le c
  have hunit : (1 : Int) ≤ 2 ^ c.projShift ∧ (2 : Int) ^ c.projShift ≤ 2 ^ 15 :=
    ⟨one_le_pow₀ (by decide), pow_le_pow_right₀ (by decide) (config_projShift_le c)⟩
  have hz := hprod ha' hpersp
  have hshift : |a * c.perspUnit / 2 ^ c.projShift| ≤ 32768 * 32767 :=
    abs_asr_le (hz.trans (le_mul_of_one_le_right (by decide) hunit.1))
  have hac := abs_le.1 (hprod ha' hcs)
  have hbs := abs_le.1 (hprod hb' hsn)
  have has := abs_le.1 (hprod ha' hsn)
  have hbc := abs_le.1 (hprod hb' hcs)
  rw [abs_le] at hz hshift
  exact ⟨by omega, by omega, by omega, by omega⟩

/-! ### The exact angles -/

/-- A rotation by a multiple of 90 degrees multiplies by 0 and by ±16384 only, so the three shifts lose nothing. -/
theorem rotated_of_exact {c : Config} {sn cs : Int} {v : IntVec3} {w : VertexWork} (h : VertexRule c sn cs v w) :
    (sn = 0 → cs = 16384 ∨ cs = -16384 → (w.x3, w.y3, w.z2) = (v.x, v.y, v.z)) ∧
    (sn = 16384 → cs = 0 → (w.x3, w.y3, w.z2) = (v.x, -v.z, v.y)) ∧
    (sn = -16384 → cs = 0 → (w.x3, w.y3, w.z2) = (-v.x, -v.z, -v.y)) := by
  obtain ⟨hx1, hz1, hy2, hz2, hx3, hy3, _, _, _, _, _⟩ := h
  simp only [Prod.mk.injEq]
  refine ⟨?_, ?_, ?_⟩
  · rintro rfl (rfl | rfl) <;> omega
  · rintro rfl rfl
    omega
  · rintro rfl rfl
    omega

/-- Settles O22: the sine pair at the four angles (R94) makes the rotation exact, and the screen coordinates follow from
their equations. -/
theorem exactAnglesPermuteCoordinates : Obligations.ExactAnglesPermuteCoordinates := by
  unfold Obligations.ExactAnglesPermuteCoordinates
  intro c v
  obtain ⟨_, hexact, _⟩ := sincosSymmetriesAndExactValues
  obtain ⟨h0, h90, h180, h270, _⟩ := hexact c
  rw [h0, h90, h180, h270]
  refine ⟨fun w h => ?_, fun w h => ?_, fun w h => ?_, fun w h => ?_⟩ <;> have hrot := rotated_of_exact h
  · have hsame := hrot.1 rfl (.inl rfl)
    refine ⟨hsame, ?_⟩
    obtain ⟨hx, hy, hz⟩ : w.x3 = v.x ∧ w.y3 = v.y ∧ w.z2 = v.z := by simpa only [Prod.mk.injEq] using hsame
    rw [h.sx, h.sy, h.px, h.py, h.zf, hx, hy, hz]
    exact ⟨rfl, rfl⟩
  · exact hrot.2.1 rfl rfl
  · exact hrot.1 rfl (.inr rfl)
  · exact hrot.2.2 rfl rfl

/-! ### The edges of the reference cube -/

/-- A vertex in the box of R11 is on the screen. -/
theorem tpPoint_onScreen {s : State} {a : Nat} (ha : a < 360)
    (htp : s.tp = transformed configReference (sincos configReference a).1 (sincos configReference a).2) (i : Fin 8) :
    OnScreen (tpPoint s i) := by
  have hbox := referenceWork_inBox ha i
  obtain ⟨hx, hy, _⟩ := projected_toInt_of_inReferenceBox hbox
  have hpoint : tpPoint s i = ((referenceWork a i).sx, (referenceWork a i).sy) := by
    rw [tpPoint, htp, getElem_transformed]
    exact Prod.ext hx hy
  rw [hpoint]
  exact ⟨by omega, by omega⟩

/-- Settles O56: the invariant ties TP to an XFORM, whose vertices are in the box of R11. -/
theorem referenceEdgesNeverFault : Obligations.ReferenceEdgesNeverFault := by
  unfold Obligations.ReferenceEdgesNeverFault
  intro s b e h hcfg hvalid he
  obtain ⟨a, ha, _, htp⟩ := h.tpIsTransformed hvalid
  rw [hcfg] at htp
  have hplan : edgePlan e s = .ok _ := edgePlan_ok_iff.2
    ⟨hvalid, he, segmentPlan_ok (tpPoint_onScreen ha htp edgeTable[e].1) (tpPoint_onScreen ha htp edgeTable[e].2)⟩
  exact ⟨_, exec_of_drawPlan_ok (i := .edge b e) (congrArg (fun plan => some (b, plan)) hplan), rfl, rfl, rfl⟩

end Sys2Proof.Machine

/-! PROOFS that the legality test is R10 (00_scope.md section 5): its table of floors against the real sine. The point
of the unit circle at one degree is known to ten digits; its powers, in exact integers, give every other degree, and
their error grows by no more than a constant at each power. -/

namespace Sys2Proof.Machine

/-! ### One degree -/

theorem sin_bounds {x lo hi : ℝ} (h0 : 0 ≤ lo) (hlo : lo ≤ x) (hhi : x ≤ hi) (h1 : hi ≤ 1) :
    lo - hi ^ 3 / 6 - hi ^ 5 / 100 ≤ Real.sin x ∧ Real.sin x ≤ hi - lo ^ 3 / 6 + hi ^ 5 / 100 := by
  have hx : |x| = x := abs_of_nonneg (h0.trans hlo)
  have hbound := Real.sin_bound (x := x) (by rw [hx]; exact hhi.trans h1)
  rw [hx, abs_le] at hbound
  have h3lo : lo ^ 3 ≤ x ^ 3 := pow_le_pow_left₀ h0 hlo 3
  have h3hi : x ^ 3 ≤ hi ^ 3 := pow_le_pow_left₀ (h0.trans hlo) hhi 3
  have h5hi : x ^ 5 ≤ hi ^ 5 := pow_le_pow_left₀ (h0.trans hlo) hhi 5
  constructor <;> linarith

theorem abs_sin_one_degree : |Real.sin (Real.pi / 180) - 174524064 / 10 ^ 10| ≤ 1 / 10 ^ 10 := by
  have hlo := Real.pi_gt_d20
  have hhi := Real.pi_lt_d20
  have hsin := sin_bounds (x := Real.pi / 180) (lo := 0.01745329251994) (hi := 0.01745329251995) (by norm_num)
    (by linarith) (by linarith) (by norm_num)
  norm_num at hsin
  rw [abs_le]
  constructor <;> linarith

theorem abs_cos_one_degree : |Real.cos (Real.pi / 180) - 9998476951 / 10 ^ 10| ≤ 1 / 10 ^ 10 := by
  have hlo := Real.pi_gt_d20
  have hhi := Real.pi_lt_d20
  have hsin := sin_bounds (x := Real.pi / 360) (lo := 0.00872664625997) (hi := 0.00872664625998) (by norm_num)
    (by linarith) (by linarith) (by norm_num)
  norm_num at hsin
  have hdouble : Real.cos (Real.pi / 180) = 1 - 2 * Real.sin (Real.pi / 360) ^ 2 := by
    rw [Real.sin_sq_eq_half_sub, show 2 * (Real.pi / 360) = Real.pi / 180 by ring]
    ring
  have hsqlo : (0.0087265354974 : ℝ) ^ 2 ≤ Real.sin (Real.pi / 360) ^ 2 :=
    pow_le_pow_left₀ (by norm_num) (by linarith) 2
  have hsqhi : Real.sin (Real.pi / 360) ^ 2 ≤ 0.0087265354985 ^ 2 := pow_le_pow_left₀ (by linarith) (by linarith) 2
  norm_num at hsqlo hsqhi
  rw [hdouble, abs_le]
  constructor <;> linarith

/-! ### Powers of one degree -/

/-- The point of the unit circle at one degree. -/
noncomputable def degreePoint : ℂ := Complex.exp ((Real.pi / 180 : ℝ) * Complex.I)

/-- Ten digits of that point, rounded towards 0. -/
noncomputable def degreeApprox : ℂ := ⟨9998476951 / 10 ^ 10, 174524064 / 10 ^ 10⟩

/-- The real and imaginary parts of the powers of the ten digits, without their denominator. -/
def degreePower : Nat → Int × Int
  | 0 => (1, 0)
  | n + 1 =>
    (9998476951 * (degreePower n).1 - 174524064 * (degreePower n).2,
      9998476951 * (degreePower n).2 + 174524064 * (degreePower n).1)

theorem degreeApprox_pow (n : Nat) :
    degreeApprox ^ n = ⟨(degreePower n).1 / (10 ^ 10) ^ n, (degreePower n).2 / (10 ^ 10) ^ n⟩ := by
  induction n with
  | zero => simp [degreePower, Complex.ext_iff]
  | succ n ih =>
    rw [pow_succ, ih, degreeApprox, degreePower]
    refine Complex.ext ?_ ?_
    · rw [Complex.mul_re]
      push_cast
      ring
    · rw [Complex.mul_im]
      push_cast
      ring

theorem degreePoint_pow_im (n : Nat) : (degreePoint ^ n).im = Real.sin (n * Real.pi / 180) := by
  rw [degreePoint, ← Complex.exp_nat_mul, ← mul_assoc]
  have h := Complex.exp_ofReal_mul_I_im (n * Real.pi / 180)
  rw [← h]
  push_cast
  ring_nf

theorem norm_degreePoint : ‖degreePoint‖ = 1 := Complex.norm_exp_ofReal_mul_I _

theorem norm_degreeApprox_le : ‖degreeApprox‖ ≤ 1 := by
  rw [← sq_le_one_iff₀ (norm_nonneg _), Complex.sq_norm, Complex.normSq_apply, degreeApprox]
  norm_num

theorem norm_degreePoint_sub_le : ‖degreePoint - degreeApprox‖ ≤ 2 / 10 ^ 10 := by
  have hre : |(degreePoint - degreeApprox).re| ≤ 1 / 10 ^ 10 := by
    rw [Complex.sub_re, degreePoint, Complex.exp_ofReal_mul_I_re]
    exact abs_cos_one_degree
  have him : |(degreePoint - degreeApprox).im| ≤ 1 / 10 ^ 10 := by
    rw [Complex.sub_im, degreePoint, Complex.exp_ofReal_mul_I_im]
    exact abs_sin_one_degree
  have hnorm := Complex.norm_le_abs_re_add_abs_im (degreePoint - degreeApprox)
  linarith

/-- In the unit disc the error of a power grows by the error of its base. -/
theorem norm_pow_sub_pow_le {w z : ℂ} (hw : ‖w‖ ≤ 1) (hz : ‖z‖ ≤ 1) (n : Nat) : ‖w ^ n - z ^ n‖ ≤ n * ‖w - z‖ := by
  induction n with
  | zero => simp
  | succ n ih =>
    have hsplit : w ^ (n + 1) - z ^ (n + 1) = w * (w ^ n - z ^ n) + (w - z) * z ^ n := by ring
    have hfirst : ‖w * (w ^ n - z ^ n)‖ ≤ n * ‖w - z‖ := by
      rw [norm_mul]
      exact (mul_le_of_le_one_left (norm_nonneg _) hw).trans ih
    have hsecond : ‖(w - z) * z ^ n‖ ≤ ‖w - z‖ := by
      rw [norm_mul, norm_pow]
      exact mul_le_of_le_one_right (norm_nonneg _) (pow_le_one₀ (norm_nonneg _) hz)
    calc ‖w ^ (n + 1) - z ^ (n + 1)‖
        ≤ ‖w * (w ^ n - z ^ n)‖ + ‖(w - z) * z ^ n‖ := hsplit ▸ norm_add_le _ _
      _ ≤ (n + 1 : ℕ) * ‖w - z‖ := by push_cast; linarith

theorem abs_sin_sub_degreePower_le (n : Nat) :
    |Real.sin (n * Real.pi / 180) - (degreePower n).2 / (10 ^ 10) ^ n| ≤ n * (2 / 10 ^ 10 : ℝ) := by
  have him : (degreeApprox ^ n).im = (degreePower n).2 / (10 ^ 10) ^ n := by rw [degreeApprox_pow]
  rw [← degreePoint_pow_im, ← him, ← Complex.sub_im]
  calc |(degreePoint ^ n - degreeApprox ^ n).im|
      ≤ ‖degreePoint ^ n - degreeApprox ^ n‖ := Complex.abs_im_le_norm _
    _ ≤ n * ‖degreePoint - degreeApprox‖ := norm_pow_sub_pow_le norm_degreePoint.le norm_degreeApprox_le n
    _ ≤ n * (2 / 10 ^ 10) := mul_le_mul_of_nonneg_left norm_degreePoint_sub_le (Nat.cast_nonneg n)

/-! ### The table of floors -/

/-- Away from 0 and 30 degrees the scaled sine keeps a thousandth away from the integers. -/
theorem sineFloor_degreePower : ∀ d < 90, d = 0 ∨ d = 30 ∨
    ((1000 * (sineFloor.getD d 0 : Int) + 1) * (10 ^ 10) ^ d ≤ 16384000 * (degreePower d).2 ∧
     16384000 * (degreePower d).2 ≤ (1000 * (sineFloor.getD d 0 : Int) + 999) * (10 ^ 10) ^ d) := by decide

/-- R90: the table holds the floors of the scaled sine, which is an integer at 0 and 30 degrees only. -/
theorem sineFloor_lt_sin {d : Nat} (hd : d < 90) (h0 : d ≠ 0) (h30 : d ≠ 30) :
    (sineFloor.getD d 0 : ℝ) < 16384 * Real.sin (d * Real.pi / 180) ∧
    16384 * Real.sin (d * Real.pi / 180) < sineFloor.getD d 0 + 1 := by
  obtain ⟨hlo, hhi⟩ := ((sineFloor_degreePower d hd).resolve_left h0).resolve_left h30
  have herr := abs_sin_sub_degreePower_le d
  have hd' : (d : ℝ) ≤ 90 := by exact_mod_cast hd.le
  have hpos : (0 : ℝ) < (10 ^ 10) ^ d := by positivity
  have hlo' : (1000 * (sineFloor.getD d 0 : ℝ) + 1) / 16384000 ≤ (degreePower d).2 / (10 ^ 10) ^ d := by
    rw [div_le_div_iff₀ (by norm_num) hpos, mul_comm ((degreePower d).2 : ℝ)]
    exact_mod_cast hlo
  have hhi' : (degreePower d).2 / (10 ^ 10) ^ d ≤ (1000 * (sineFloor.getD d 0 : ℝ) + 999) / 16384000 := by
    rw [div_le_div_iff₀ hpos (by norm_num), mul_comm ((degreePower d).2 : ℝ)]
    exact_mod_cast hhi
  rw [abs_le] at herr
  constructor <;> linarith

theorem sineLegal_iff {d v : Nat} :
    sineLegal d v = true ↔ v = sineFloor.getD d 0 ∨ (v = sineFloor.getD d 0 + 1 ∧ d ≠ 0 ∧ d ≠ 30) := by
  simp only [sineLegal, Bool.or_eq_true, Bool.and_eq_true, beq_iff_eq, bne_iff_ne, and_assoc]

/-- An integer strictly within 1 of a real is its floor or the one above, and the floor alone when the real is one. -/
theorem abs_sub_lt_one_iff_of_eq {v n : Nat} {x : ℝ} (hx : x = n) : |(v : ℝ) - x| < 1 ↔ v = n := by
  rw [hx, abs_lt]
  constructor
  · rintro ⟨hlo, hhi⟩
    have hlo' : n < v + 1 := by exact_mod_cast (by linarith : (n : ℝ) < v + 1)
    have hhi' : v < n + 1 := by exact_mod_cast (by linarith : (v : ℝ) < n + 1)
    omega
  · rintro rfl
    constructor <;> linarith

theorem abs_sub_lt_one_iff_of_between {v n : Nat} {x : ℝ} (hlt : (n : ℝ) < x) (hgt : x < n + 1) :
    |(v : ℝ) - x| < 1 ↔ v = n ∨ v = n + 1 := by
  rw [abs_lt]
  constructor
  · rintro ⟨hlo, hhi⟩
    have hlo' : n < v + 1 := by exact_mod_cast (by linarith : (n : ℝ) < v + 1)
    have hhi' : v < n + 2 := by exact_mod_cast (by linarith : (v : ℝ) < n + 2)
    omega
  · rintro (rfl | rfl)
    · constructor <;> linarith
    · push_cast
      constructor <;> linarith

/-- The test of an entry is R10 (d). -/
theorem sineLegal_iff_sin {d : Nat} (hd : d < 90) (v : Nat) :
    sineLegal d v = true ↔ v ≤ 16384 ∧ |(v : ℝ) - 16384 * Real.sin (d * Real.pi / 180)| < 1 := by
  have hnear : sineLegal d v = true ↔ |(v : ℝ) - 16384 * Real.sin (d * Real.pi / 180)| < 1 := by
    rw [sineLegal_iff]
    by_cases h0 : d = 0
    · subst h0
      rw [abs_sub_lt_one_iff_of_eq (n := 0) (by simp)]
      simp [sineFloor]
    by_cases h30 : d = 30
    · subst h30
      rw [abs_sub_lt_one_iff_of_eq (n := 8192) (by
        rw [show ((30 : Nat) : ℝ) * Real.pi / 180 = Real.pi / 6 by push_cast; ring, Real.sin_pi_div_six]
        norm_num)]
      simp [sineFloor]
    · obtain ⟨hlt, hgt⟩ := sineFloor_lt_sin hd h0 h30
      rw [abs_sub_lt_one_iff_of_between hlt hgt]
      simp only [h0, h30, ne_eq, not_false_eq_true, and_true]
  rw [← hnear]
  exact ⟨fun h => ⟨sineLegal_le hd h, h⟩, And.right⟩

/-- Settles O57: the ranges are the test's own, and each entry of the table is compared with the sine. -/
theorem legalConfigurationsAreThoseOfTheRule : Obligations.LegalConfigurationsAreThoseOfTheRule := by
  unfold Obligations.LegalConfigurationsAreThoseOfTheRule
  intro p
  rw [params_legal_iff]
  have htable : (∀ d < 90, sineLegal d (p.sinTab.getD d 0) = true) ↔ ∀ d < 90, p.sinTab.getD d 0 ≤ 16384 ∧
      |((p.sinTab.getD d 0 : Nat) : ℝ) - 16384 * Real.sin ((d : ℝ) * Real.pi / 180)| < 1 :=
    forall₂_congr fun d hd => sineLegal_iff_sin hd _
  rw [htable]

end Sys2Proof.Machine
